-- ==== Sys2Proof/Word.lean ====
section
/-!
DEFINITION. The word types of the block and their plainest arithmetic (00_scope.md R8).
-/
namespace Sys2Proof

/-- A byte: an 8-bit unsigned value (R8). -/
abbrev Byte := BitVec 8

/-- A 16-bit word: a command word (R70) or the word of an i16 field (R23, R181). -/
abbrev Word16 := BitVec 16

/-- Bits [7:0] of a word (R8). -/
def lowByte (w : Word16) : Byte := w.extractLsb' 0 8

/-- Bits [15:8] of a word (R8). -/
def highByte (w : Word16) : Byte := w.extractLsb' 8 8

/-- `{hi, lo}`: `hi` in bits [15:8], `lo` in bits [7:0] (R8). -/
def joinBytes (hi lo : Byte) : Word16 := hi ++ lo

end Sys2Proof
end

