-- ==== Sys2Proof/Config.lean ====
section
/-!
DEFINITION. The fixed constants of the block (00_scope.md R5), the bound and the recommended form of its one
parameter `QCAP` (R4), and the parameter `PRETTY_REAL` of the companion converter (45_unit_converter.md R224).
The spec leaves no value of an operation's result open, so there is no opaque constant here.
-/
namespace Sys2Proof

/-- Each of the two sync bytes (R5, R63). -/
def Config.syncByte : Byte := 0xAA#8

/-- `BODY_LEN`, the bytes of a body (R5, R61). -/
def Config.bodyLen : Nat := 17

/-- `FRAME_LEN`, the bytes of a frame on the wire (R5, R60). -/
def Config.frameLen : Nat := 19

/-- `CSUM_LEN`, the bytes the checksum covers (R5, R64). -/
def Config.csumLen : Nat := 16

/-- The least capacity the spec admits: one frame (R4, R275). -/
def Config.minQcap : Nat := 19

/-- The capacity `QFRAMES * 19` the spec recommends (R4). -/
def Config.qcapOfFrames (qframes : Nat) : Nat := qframes * Config.frameLen

/-- The capacity `State.reset` is constructed with: `QFRAMES = 4`, the test vectors' value (R4).
DESIGN CHOICE, unsafe (log entry 1): the spec leaves `QCAP` open, so no statement rests on this number. -/
def Config.resetQcap : Nat := Config.qcapOfFrames 4

/-- The longest payload a command word can announce: `LEN` has 12 bits (R70, R73). -/
def Config.maxLen : Nat := 4095

/-- `PRETTY_REAL`, the number type of the converted fields: how an exact rational is represented in it and which
rational a representation stands for (R224). -/
structure Config.PrettyReal (α : Type) where
  /-- The representation chosen for an exact value. -/
  ofExact : Rat → α
  /-- The exact value a representation stands for. -/
  toExact : α → Rat

/-- The spec's default for `PRETTY_REAL`: the exact rationals themselves (R224). -/
def Config.exactReal : Config.PrettyReal Rat := { ofExact := id, toExact := id }

/-- The absolute tolerance a claim on a float implementation may use, 0.001 (R224). -/
def Config.prettyTolerance : Rat := 1 / 1000

end Sys2Proof
end

