-- ==== Sys2Proof/Syntax.lean ====
section
/-!
DEFINITION. The instructions: one constructor for each row of spec/opcode_table.json, and the two kinds of name
they are stated over, the scan states (10_state.md R22) and the agents (00_scope.md R6).
-/
namespace Sys2Proof

/-- The three values of the scan-state register (R22). -/
inductive DecoderState where
  | seekFirstSync
  | seekSecondSync
  | awaitingBody
  deriving DecidableEq, Repr

/-- The two agents that act on the block (R6). -/
inductive Agent where
  /-- Issues SUBMIT only. -/
  | producer
  /-- Issues POLL and LAST_FRAME only, and receives the frame event. -/
  | consumer
  deriving DecidableEq, Repr

/-- One constructor for each row of the opcode table: three operations, five reserved command words, six rows of
the sync-search machine. -/
inductive Instr where
  /-- SUBMIT (R100): append the whole payload or none of it. -/
  | submit (payload : List Byte)
  /-- POLL (R120): one scan of the buffered bytes. -/
  | poll
  /-- LAST_FRAME (R200): read the latest valid record. -/
  | lastFrame
  /-- RESERVED_OP0 (R72): `OP = 0x0`, with the word's other 12 bits. -/
  | reservedOp0 (low : BitVec 12)
  /-- RESERVED_OP4_7 (R72): bits [15:14] are 01, with the word's other 14 bits. -/
  | reservedOp4to7 (low : BitVec 14)
  /-- RESERVED_OP8_F (R72): bit 15 is 1, with the word's other 15 bits. -/
  | reservedOp8toF (low : BitVec 15)
  /-- RESERVED_POLL_LEN (R72): a POLL word with `LEN != 0`. -/
  | reservedPollLen (len : BitVec 12)
  /-- RESERVED_LAST_FRAME_LEN (R72): a LAST_FRAME word with `LEN != 0`. -/
  | reservedLastFrameLen (len : BitVec 12)
  /-- FSM_SYNC_IN_SEEK_FIRST (R123): the byte 0xAA in SeekFirstSync. -/
  | fsmSyncInSeekFirst
  /-- FSM_OTHER_IN_SEEK_FIRST (R124): a byte other than 0xAA in SeekFirstSync. -/
  | fsmOtherInSeekFirst (b : Byte)
  /-- FSM_SYNC_IN_SEEK_SECOND (R125): the byte 0xAA in SeekSecondSync. -/
  | fsmSyncInSeekSecond
  /-- FSM_OTHER_IN_SEEK_SECOND (R126): a byte other than 0xAA in SeekSecondSync. -/
  | fsmOtherInSeekSecond (b : Byte)
  /-- FSM_BODY_COMPLETE (R128): AwaitingBody with at least 17 bytes left; no byte is examined. -/
  | fsmBodyComplete
  /-- FSM_BODY_INCOMPLETE (R127): AwaitingBody with fewer than 17 bytes left; no byte is examined. -/
  | fsmBodyIncomplete
  deriving DecidableEq, Repr

end Sys2Proof
end

