-- ==== Sys2Proof/WellFormed.lean ====
section
/-!
DEFINITION. Which instructions an encoding can spell (30_encoding.md R67, R70 to R73). A SUBMIT with a longer
payload than `LEN` can announce still has its meaning (R73); it only has no command word, and no step issues it (log entry 25).
-/
namespace Sys2Proof

/-- The checks that an instruction's operands are what its encoding admits. -/
def WellFormed : Instr → Bool
  | .submit payload => decide (payload.length ≤ Config.maxLen)
  | .poll => true
  | .lastFrame => true
  | .reservedOp0 _ => true
  | .reservedOp4to7 _ => true
  | .reservedOp8toF _ => true
  | .reservedPollLen len => decide (len ≠ 0#12)
  | .reservedLastFrameLen len => decide (len ≠ 0#12)
  | .fsmSyncInSeekFirst => true
  | .fsmOtherInSeekFirst b => decide (b ≠ Config.syncByte)
  | .fsmSyncInSeekSecond => true
  | .fsmOtherInSeekSecond b => decide (b ≠ Config.syncByte)
  | .fsmBodyComplete => true
  | .fsmBodyIncomplete => true

end Sys2Proof
end

