-- ==== Sys2Proof/Decode.lean ====
section
/-!
DEFINITION. The decoders and the encoder (30_encoding.md R67, R70 to R75). A command is read from a list of bytes,
command word high byte first (R73); a row of the sync-search machine is read from the scan state and the view bytes
that are left (R67, R122). Both are total and refuse by name. The encoder stands after them.
-/
namespace Sys2Proof

/-! ## The scan-state register (R75) -/

/-- The 2-bit code of a scan state (R75). -/
def DecoderState.bits : DecoderState → BitVec 2
  | .seekFirstSync => 0#2
  | .seekSecondSync => 1#2
  | .awaitingBody => 2#2

/-- The scan state a 2-bit code stands for; `11` is unused (R75). -/
def DecoderState.ofBits (b : BitVec 2) : Option DecoderState :=
  if b = 0#2 then some .seekFirstSync
  else if b = 1#2 then some .seekSecondSync
  else if b = 2#2 then some .awaitingBody
  else none

/-! ## Commands (R70 to R73) -/

/-- Why a list of bytes spells no command. -/
inductive DecodeError where
  /-- Fewer than the two bytes of a command word. -/
  | incompleteWord
  /-- Fewer payload bytes than `LEN` announces. -/
  | incompletePayload
  deriving DecidableEq, Repr

/-- `OP`, bits [15:12] (R70). -/
def cmdOp (w : Word16) : BitVec 4 := w.extractLsb' 12 4

/-- `LEN`, bits [11:0] (R70). -/
def cmdLen (w : Word16) : BitVec 12 := w.extractLsb' 0 12

/-- The command that the word `w` and the bytes behind it spell, with the bytes left over (R71, R72, R73). -/
def decodeWord (w : Word16) (rest : List Byte) : Except DecodeError (Instr × List Byte) :=
  if cmdOp w = 1#4 then
    let n := (cmdLen w).toNat
    if n ≤ rest.length then .ok (.submit (rest.take n), rest.drop n) else .error .incompletePayload
  else if cmdOp w = 2#4 then
    if cmdLen w = 0#12 then .ok (.poll, rest) else .ok (.reservedPollLen (cmdLen w), rest)
  else if cmdOp w = 3#4 then
    if cmdLen w = 0#12 then .ok (.lastFrame, rest) else .ok (.reservedLastFrameLen (cmdLen w), rest)
  else if cmdOp w = 0#4 then .ok (.reservedOp0 (cmdLen w), rest)
  else if w.extractLsb' 15 1 = 0#1 then .ok (.reservedOp4to7 (w.extractLsb' 0 14), rest)
  else .ok (.reservedOp8toF (w.extractLsb' 0 15), rest)

/-- The first command of a list of bytes, with the bytes left over; the word's high byte comes first (R73). -/
def decodeCommand : List Byte → Except DecodeError (Instr × List Byte)
  | hi :: lo :: rest => decodeWord (joinBytes hi lo) rest
  | _ => .error .incompleteWord

/-! ## Rows of the sync-search machine (R67, R122) -/

/-- The row that one pass of R122's loop takes in scan state `d` with the bytes `left` not yet scanned; none where the
view is exhausted in a seek state. -/
def decodeScan (d : DecoderState) (left : List Byte) : Option Instr :=
  match d with
  | .awaitingBody => if Config.bodyLen ≤ left.length then some .fsmBodyComplete else some .fsmBodyIncomplete
  | .seekFirstSync =>
    match left with
    | [] => none
    | b :: _ => if b = Config.syncByte then some .fsmSyncInSeekFirst else some (.fsmOtherInSeekFirst b)
  | .seekSecondSync =>
    match left with
    | [] => none
    | b :: _ => if b = Config.syncByte then some .fsmSyncInSeekSecond else some (.fsmOtherInSeekSecond b)

/-! ## The encoder -/

/-- The bytes of a word as a serialized command carries them: high byte first (R73). -/
def wordBytes (w : Word16) : List Byte := [highByte w, lowByte w]

/-- The command word of an instruction (R70 to R72); none for a row of the sync-search machine, which is no command. -/
def cmdWord : Instr → Option Word16
  | .submit payload => some (1#4 ++ BitVec.ofNat 12 payload.length)
  | .poll => some 0x2000#16
  | .lastFrame => some 0x3000#16
  | .reservedOp0 low => some (0#4 ++ low)
  | .reservedOp4to7 low => some (1#2 ++ low)
  | .reservedOp8toF low => some (1#1 ++ low)
  | .reservedPollLen len => some (2#4 ++ len)
  | .reservedLastFrameLen len => some (3#4 ++ len)
  | .fsmSyncInSeekFirst => none
  | .fsmOtherInSeekFirst _ => none
  | .fsmSyncInSeekSecond => none
  | .fsmOtherInSeekSecond _ => none
  | .fsmBodyComplete => none
  | .fsmBodyIncomplete => none

/-- The payload bytes behind a command word (R70, R71). -/
def cmdPayload : Instr → List Byte
  | .submit payload => payload
  | _ => []

/-- The scan state in which a row of the sync-search machine is taken (R123 to R128); none for a command. -/
def rowState : Instr → Option DecoderState
  | .fsmSyncInSeekFirst => some .seekFirstSync
  | .fsmOtherInSeekFirst _ => some .seekFirstSync
  | .fsmSyncInSeekSecond => some .seekSecondSync
  | .fsmOtherInSeekSecond _ => some .seekSecondSync
  | .fsmBodyComplete => some .awaitingBody
  | .fsmBodyIncomplete => some .awaitingBody
  | _ => none

/-- The view byte a row examines (R67); none where no byte is examined (R127, R128). -/
def rowByte : Instr → Option Byte
  | .fsmSyncInSeekFirst => some Config.syncByte
  | .fsmOtherInSeekFirst b => some b
  | .fsmSyncInSeekSecond => some Config.syncByte
  | .fsmOtherInSeekSecond b => some b
  | _ => none

/-- The bytes that spell an instruction: command word and payload for a command (R73), the examined view byte for a
row of the sync-search machine, nothing for its two AwaitingBody rows. -/
def encode (i : Instr) : List Byte :=
  match cmdWord i with
  | some w => wordBytes w ++ cmdPayload i
  | none => (rowByte i).toList

/-- How many bytes spell an instruction: `2 + LEN` for SUBMIT, 2 for every other command word (R73), one examined view byte
for a seek row, none for an AwaitingBody row (R67, R127, R128). -/
def encodedLength : Instr → Nat
  | .submit payload => 2 + payload.length
  | .poll => 2
  | .lastFrame => 2
  | .reservedOp0 _ => 2
  | .reservedOp4to7 _ => 2
  | .reservedOp8toF _ => 2
  | .reservedPollLen _ => 2
  | .reservedLastFrameLen _ => 2
  | .fsmSyncInSeekFirst => 1
  | .fsmOtherInSeekFirst _ => 1
  | .fsmSyncInSeekSecond => 1
  | .fsmOtherInSeekSecond _ => 1
  | .fsmBodyComplete => 0
  | .fsmBodyIncomplete => 0

/-! ## The opcode table's own mask and pattern -/

/-- `match` and `mask` of a command's row in spec/opcode_table.json; none for a row of the sync-search machine. -/
def cmdPattern : Instr → Option (Word16 × Word16)
  | .submit _ => some (0x1000#16, 0xF000#16)
  | .poll => some (0x2000#16, 0xFFFF#16)
  | .lastFrame => some (0x3000#16, 0xFFFF#16)
  | .reservedOp0 _ => some (0x0000#16, 0xF000#16)
  | .reservedOp4to7 _ => some (0x4000#16, 0xC000#16)
  | .reservedOp8toF _ => some (0x8000#16, 0x8000#16)
  | .reservedPollLen _ => some (0x2000#16, 0xF000#16)
  | .reservedLastFrameLen _ => some (0x3000#16, 0xF000#16)
  | _ => none

/-- The instruction the decoders read from a table row's bits: a 16-bit command word with a payload of `LEN` zero bytes
behind it, or one received byte in the scan state of reset (log entries 8 and 9). -/
def decodeTableWord (nbits w : Nat) : Option Instr :=
  if nbits = 16 then
    let word := BitVec.ofNat 16 w
    match decodeCommand (wordBytes word ++ List.replicate (cmdLen word).toNat 0#8) with
    | .ok (i, _) => some i
    | .error _ => none
  else if nbits = 8 then decodeScan .seekFirstSync [BitVec.ofNat 8 w]
  else none

end Sys2Proof
end

