-- ==== Sys2Proof/Machine/State.lean ====
section
/-!
DEFINITION. The state of the block as plain data (10_state.md), the records it is made of, the reasons a step can stop,
and the state right after reset (R29, R270).
-/
namespace Sys2Proof.Machine

/-- The record unpacked from a body (R23). The six i16 fields are held as their 16-bit words; `int16` reads them
(log entry 20). -/
structure RawFrame where
  index : Byte
  yaw : Word16
  pitch : Word16
  roll : Word16
  xAcc : Word16
  yAcc : Word16
  zAcc : Word16
  motionIntent : Byte
  motionRequest : Byte
  rsvd : Byte
  csum : Byte
  deriving DecidableEq, Repr

/-- The status every operation ends with (R240). -/
inductive Status where
  | ok
  | capacityExceeded
  | queueFull
  | queueEmpty
  deriving DecidableEq, Repr

/-- What an operation returns to the agent that issued it (R74): a status and, where `FVALID = 1`, a frame. The frame of a
POLL's response is the frame event (R138). -/
structure Response where
  agent : Agent
  status : Status
  frame : Option RawFrame
  deriving DecidableEq, Repr

/-- Where an agent issues an operation from (R250(d), R250(e); log entry 15). -/
inductive Context where
  /-- After the agent's earlier operation has returned. -/
  | normal
  /-- From within the handling of a POLL's frame event. -/
  | inFrameHandler
  /-- While another operation of the same agent is still in progress. -/
  | overlapping
  deriving DecidableEq, Repr

/-- Serialized commands that an agent issues to the block. -/
structure Request where
  /-- Which kind of agent. -/
  agent : Agent
  /-- Which agent of that kind: 0 is the one attached at construction (R271; log entry 14). -/
  port : Nat
  /-- Where it is issued from. -/
  context : Context
  /-- The serialized command (R73); bytes behind a complete command are the agent's next one (log entry 13). A SUBMIT of more
  than 4095 bytes has no serialized form, so no request holds one (DESIGN CHOICE, log entry 25). -/
  bytes : List Byte
  deriving DecidableEq, Repr

/-- What the environment does to the block between two operations. Operations come in serialized form only: R73 lets a model
take a longer SUBMIT as an unbounded sequence, which `exec` does and no input does (DESIGN CHOICE, unsafe, log entry 25). -/
inductive Input where
  /-- An agent issues an operation (R7). -/
  | request (r : Request)
  /-- The block is constructed anew with the capacity argument `qcap` (R270, R272). -/
  | reset (qcap : Nat)
  deriving DecidableEq, Repr

/-- The transient state of one POLL (R24); the scan state itself is the register `State.decoderState`. -/
structure Scan where
  /-- `V`, the view. -/
  view : List Byte
  /-- `i`, the scan index. -/
  i : Nat
  /-- `rel`, the release count. -/
  rel : Nat
  /-- `ev`, the frame event. -/
  ev : Option RawFrame
  /-- The loop of R122 has been left by R127 or R128 (the model's own field; log entry 6). -/
  done : Bool
  deriving DecidableEq, Repr

/-- The state of the block. `q`, `lastFrame` and `decoderState` are its persistent state (R20 to R22), `scan` the
transient state of a POLL in progress (R24), `qcap` its configuration (R26), `response` and `inputs` its two sides
towards the agents (the model's own fields; log entries 2 and 3). -/
structure State where
  /-- `Q`, the ingress buffer, oldest byte first (R20). -/
  q : List Byte
  /-- `LastFrame` (R21). -/
  lastFrame : Option RawFrame
  /-- `DecoderState`, in its 2-bit code (R22, R75). -/
  decoderState : BitVec 2
  /-- The transient state of a POLL in progress; none at every operation boundary (R24, R29). -/
  scan : Option Scan
  /-- `QCAP`, fixed at construction (R4, R26). -/
  qcap : Nat
  /-- The response of the latest operation; none before the first (R74). -/
  response : Option Response
  /-- What the environment has issued and the block has not yet taken, in the total order of R52. -/
  inputs : List Input
  deriving DecidableEq, Repr

/-- Why the machine stops with a fault. The block itself has no trap (R246). -/
inductive Fault where
  /-- Raised by `queueRelease`: a release of more bytes than the view holds, which R9 forbids. No run reaches it
  (log entry 17). Safe. -/
  | releaseBeyondView
  deriving DecidableEq, Repr

/-- Why a step gives no meaning: the model-level refusals of R250 and the model's own. Each errs toward unprovable. -/
inductive Refusal where
  /-- Raised by an arm of `exec` for an instruction that has no meaning yet. Safe. No arm raises it now. -/
  | notModelled (mnemonic : String)
  /-- Raised by the meanings of the five reserved rows: the command word spells no operation (R72, R250(a)). Safe. -/
  | reservedCommandWord (w : Word16)
  /-- Raised by `step`: `DecoderState` holds the unused code `11` (R75, R250(b)). Safe. -/
  | decoderStateUnused
  /-- Raised by `construct` and `step`: `QCAP < 19` (R275, R250(c)). Safe. -/
  | capacityBelowFrame
  /-- Raised by `step`: a second producer or a second consumer (R278, R250(d)). Safe. -/
  | secondAgent
  /-- Raised by `step` and by the meanings of POLL and LAST_FRAME: two operations of one agent overlap (R278,
  R250(d)). Safe. -/
  | overlappingOperation
  /-- Raised by `step`: SUBMIT or POLL from within the handling of a frame event (R277, R250(e)). Safe. -/
  | reentrantOperation
  /-- Raised by `step`: an operation issued by the agent it does not belong to (R249, R250(f)). Safe. -/
  | wrongAgent
  /-- Raised by `step`: the bytes an agent issued end before the command does (log entry 12). Safe. -/
  | incompleteCommand
  /-- Raised by the meanings of the six rows of the sync-search machine: the row's scan state or byte class does not
  hold, so the row takes no transition (log entry 11). Safe. -/
  | transitionNotEnabled
  deriving DecidableEq, Repr

/-- The block right after construction with capacity `qcap` (R29, R270). -/
def State.constructed (qcap : Nat) : State where
  q := []
  lastFrame := none
  decoderState := 0#2
  scan := none
  qcap := qcap
  response := none
  inputs := []

/-- The machine right after reset (R270). Its capacity is log entry 1's. -/
def State.reset : State := State.constructed Config.resetQcap

end Sys2Proof.Machine
end

