-- ==== Sys2Proof/Machine/Operands.lean ====
section
/-!
DEFINITION. The operand forms: the byte a scan looks at and the candidate behind it (41_poll_fsm.md), the little-endian
unpacker and its inverse (43_unpacker.md, 30_encoding.md R66), and the reading of an i16 (R181).
A body is a list of exactly 17 bytes; reading past its end gives 0 and no rule does it (log entry 22).
-/
namespace Sys2Proof.Machine

/-- `V[i]`, the byte the next pass looks at; none where the view is exhausted (R122). -/
def scanByte (sc : Scan) : Option Byte := sc.view[sc.i]?

/-- `V[i .. L-1]`, the bytes not yet scanned. -/
def scanLeft (sc : Scan) : List Byte := sc.view.drop sc.i

/-- `V[i .. i+16]`, the candidate body (R128). -/
def candidate (sc : Scan) : List Byte := (scanLeft sc).take Config.bodyLen

/-- `body[k]` (R8). -/
def bodyByte (body : List Byte) (k : Nat) : Byte := body.getD k 0#8

/-- The word of the i16 field whose low byte is at body offset `k` (R62, R181). -/
def bodyWord (body : List Byte) (k : Nat) : Word16 := joinBytes (bodyByte body (k + 1)) (bodyByte body k)

/-- `int16(w)`, the two's-complement reading of a 16-bit word (R8, R181). -/
def int16 (w : Word16) : Int := if w.toNat < 0x8000 then (w.toNat : Int) else (w.toNat : Int) - 0x10000

/-- `unpack(body)` (R180). -/
def unpack (body : List Byte) : RawFrame where
  index := bodyByte body 0
  yaw := bodyWord body 1
  pitch := bodyWord body 3
  roll := bodyWord body 5
  xAcc := bodyWord body 7
  yAcc := bodyWord body 9
  zAcc := bodyWord body 11
  motionIntent := bodyByte body 13
  motionRequest := bodyByte body 14
  rsvd := bodyByte body 15
  csum := bodyByte body 16

/-- `encode(f)`, the 17-byte body of a frame (R66). -/
def encodeFrame (f : RawFrame) : List Byte :=
  [f.index,
   lowByte f.yaw, highByte f.yaw,
   lowByte f.pitch, highByte f.pitch,
   lowByte f.roll, highByte f.roll,
   lowByte f.xAcc, highByte f.xAcc,
   lowByte f.yAcc, highByte f.yAcc,
   lowByte f.zAcc, highByte f.zAcc,
   f.motionIntent, f.motionRequest, f.rsvd, f.csum]

/-- The wire form of a frame: the sync marker and the body (R60, R66). -/
def wireFrame (f : RawFrame) : List Byte := Config.syncByte :: Config.syncByte :: encodeFrame f

end Sys2Proof.Machine
end

