-- ==== Sys2Proof/Machine/Flags.lean ====
section
/-!
DEFINITION. The outcome computations. The block has no flags (10_state.md R25); what takes their place is the checksum
verdict (42_checksum.md) and the status and valid bits of a response (30_encoding.md R74, 60_exceptions.md R240).
-/
namespace Sys2Proof.Machine

/-- The sum of the first 16 body bytes in a 16-bit accumulator, each byte zero-extended (R160). -/
def bodySum (body : List Byte) : BitVec 16 :=
  (body.take Config.csumLen).foldl (fun s b => s + b.setWidth 16) 0#16

/-- `checksum_ok(body)`: the sum mod 256 equals the 17th byte (R160). -/
def checksumOk (body : List Byte) : Bool := (bodySum body).setWidth 8 == bodyByte body 16

/-- The invariant of a frame: `csum` is the sum of the first 16 bytes of its body, mod 256 (R23, R28(c)). -/
def frameOk (f : RawFrame) : Bool := checksumOk (encodeFrame f)

/-- The numeric code of a status (R74, R240). -/
def statusCode : Status → BitVec 2
  | .ok => 0#2
  | .capacityExceeded => 1#2
  | .queueFull => 2#2
  | .queueEmpty => 3#2

/-- `FVALID`: 1 if a frame follows (R74). -/
def fvalid (r : Response) : BitVec 1 := if r.frame.isSome then 1#1 else 0#1

/-- The first byte of a response: `STATUS` in [1:0], `FVALID` in [2], zero in [7:3] (R74). -/
def respByte (r : Response) : Byte := 0#5 ++ fvalid r ++ statusCode r.status

/-- The bytes of a response: RESP, then the 17 body bytes of its frame if it has one (R74). -/
def responseBytes (r : Response) : List Byte :=
  respByte r ::
    match r.frame with
    | some f => encodeFrame f
    | none => []

end Sys2Proof.Machine
end

