-- ==== Sys2Proof/Machine/Ops.lean ====
section
/-!
DEFINITION. The named operations the meanings are made of: the three buffer primitives (00_scope.md R9), returning a
status (60_exceptions.md R240; there is no trap to take, R246), construction (70_reset_and_hazards.md R270, R275), and the
pieces of a POLL: its start (R121), the transitions of its loop (R123 to R129), the loop (R122) and its end (R131, R132, R138).
-/
namespace Sys2Proof.Machine

/-! ## Buffer primitives and responses -/

/-- `QueueRead()`: the whole content as one contiguous sequence (R9, R41). -/
def queueRead (s : State) : List Byte := s.q

/-- `QueueWrite(B)`: `Q <- Q ++ B` (R9). -/
def queueWrite (s : State) (payload : List Byte) : State := { s with q := s.q ++ payload }

/-- `QueueRelease(n)`: `Q <- drop(n, Q)`; it requires `n <= len(view)` (R9). -/
def queueRelease (s : State) (n viewLen : Nat) : Host.Outcome State Fault Refusal :=
  if n ≤ viewLen then .next { s with q := s.q.drop n } else .fault .releaseBeyondView

/-- The unoccupied bytes, `QCAP - len(Q)` (R102). -/
def freeSpace (s : State) : Nat := s.qcap - s.q.length

/-- An operation returns a status, and possibly a frame, to the agent that issued it (R74, R240). -/
def respond (s : State) (agent : Agent) (status : Status) (frame : Option RawFrame) : State :=
  { s with response := some { agent := agent, status := status, frame := frame } }

/-- Construction with a capacity argument: every field at its reset value (R270); refused below one frame (R275). -/
def construct (qcap : Nat) : Host.Outcome State Fault Refusal :=
  if qcap < Config.minQcap then .refused .capacityBelowFrame else .next (State.constructed qcap)

/-- Why the block in this state is outside the spec, if it is: `DecoderState` is `11` (R250(b)) or `QCAP < 19`
(R250(c); log entries 4 and 24). Where both hold the capacity is named, and these two come before every other refusal (DESIGN
CHOICE, safe, log entry 26). -/
def unsupported (s : State) : Option Refusal :=
  if s.qcap < Config.minQcap then some .capacityBelowFrame
  else if DecoderState.ofBits s.decoderState = none then some .decoderStateUnused
  else none

/-! ## A POLL in progress -/

/-- The start of a POLL on a buffer that is not empty: the view is taken, the scan starts in SeekFirstSync (R121). -/
def pollBegin (s : State) : State :=
  { s with
    decoderState := DecoderState.seekFirstSync.bits
    scan := some { view := queueRead s, i := 0, rel := 0, ev := none, done := false } }

/-- The scan in progress, where its loop is still running in scan state `d`. -/
def scanIn (s : State) (d : DecoderState) : Option Scan :=
  match s.scan with
  | some sc => if sc.done = false ∧ s.decoderState = d.bits then some sc else none
  | none => none

/-- A byte is consumed: `i` advances, the scan state becomes `d` and the release count `rel` (R123 to R126). -/
def consumeByte (s : State) (sc : Scan) (d : DecoderState) (rel : Nat) : State :=
  { s with decoderState := d.bits, scan := some { sc with i := sc.i + 1, rel := rel } }

/-- R123: the byte 0xAA in SeekFirstSync is consumed and not yet released. -/
def matchFirstSync (s : State) (sc : Scan) : State := consumeByte s sc .seekSecondSync sc.rel

/-- R124: another byte in SeekFirstSync is garbage, consumed and marked for release. -/
def skipGarbage (s : State) (sc : Scan) : State := consumeByte s sc .seekFirstSync (sc.i + 1)

/-- R125: the byte 0xAA in SeekSecondSync completes the sync marker. -/
def matchSecondSync (s : State) (sc : Scan) : State := consumeByte s sc .awaitingBody sc.rel

/-- R126: another byte in SeekSecondSync ends the attempt; both bytes are marked for release. -/
def failSecondSync (s : State) (sc : Scan) : State := consumeByte s sc .seekFirstSync (sc.i + 1)

/-- R127: an incomplete candidate ends the scan, nothing is consumed. -/
def leaveIncomplete (s : State) (sc : Scan) : State := { s with scan := some { sc with done := true } }

/-- R128: the candidate is taken through its end and the scan ends; R24: the scan index advances by 17. -/
def candidateTaken (sc : Scan) : Scan :=
  { sc with i := sc.i + Config.bodyLen, rel := sc.i + Config.bodyLen, done := true }

/-- R128 and R129: the candidate is taken and validated; a match writes LastFrame and sets the event, a mismatch is
silent. -/
def takeCandidate (s : State) (sc : Scan) : State :=
  if checksumOk (candidate sc) then
    let f := unpack (candidate sc)
    { s with lastFrame := some f, scan := some { candidateTaken sc with ev := some f } }
  else { s with scan := some (candidateTaken sc) }

/-- One pass of R122's loop; none where the loop exits, the scan having ended or the view being exhausted. -/
def scanPass (s : State) (sc : Scan) : Option State :=
  if sc.done then none
  else
    match DecoderState.ofBits s.decoderState with
    | none => none
    | some .awaitingBody =>
      if Config.bodyLen ≤ (scanLeft sc).length then some (takeCandidate s sc) else some (leaveIncomplete s sc)
    | some .seekFirstSync =>
      match scanByte sc with
      | none => none
      | some b => if b = Config.syncByte then some (matchFirstSync s sc) else some (skipGarbage s sc)
    | some .seekSecondSync =>
      match scanByte sc with
      | none => none
      | some b => if b = Config.syncByte then some (matchSecondSync s sc) else some (failSecondSync s sc)

/-- R122's loop, with at most `fuel` passes; `L + 1` are enough (R122). -/
def scanLoop : Nat → State → State
  | 0, s => s
  | fuel + 1, s =>
    match s.scan with
    | none => s
    | some sc =>
      match scanPass s sc with
      | none => s
      | some t => scanLoop fuel t

/-- The end of a POLL: the release (R131), the scan state back at SeekFirstSync (R132), then the response with the frame
event (R138). -/
def pollEnd (s : State) (sc : Scan) : Host.Outcome State Fault Refusal :=
  match queueRelease s sc.rel sc.view.length with
  | .next t =>
    .next (respond { t with decoderState := DecoderState.seekFirstSync.bits, scan := none } .consumer .ok sc.ev)
  | .fault r => .fault r
  | .refused r => .refused r

/-- A POLL of a buffer that is not empty, from its start through its end (R122). -/
def pollScan (s : State) : Host.Outcome State Fault Refusal :=
  let t := scanLoop (s.q.length + 1) (pollBegin s)
  match t.scan with
  | some sc => pollEnd t sc
  | none => .refused .transitionNotEnabled

end Sys2Proof.Machine
end

