-- ==== Sys2Proof/Machine/Consumer.lean ====
section
/-!
DEFINITION. The consumer's operations (41_poll_fsm.md, 44_last_frame.md). Each refuses to start while a POLL is in
progress: two operations of one agent would overlap (60_exceptions.md R250(d)).
-/
namespace Sys2Proof.Machine

/-- POLL (R120): QUEUE_EMPTY on an empty buffer, which changes nothing (R121); else the whole scan of R122. -/
def execPoll (s : State) : Host.Outcome State Fault Refusal :=
  match s.scan with
  | some _ => .refused .overlappingOperation
  | none => if s.q = [] then .next (respond s .consumer .queueEmpty none) else pollScan s

/-- LAST_FRAME (R200): returns `(OK, LastFrame)` and writes no state of the block. -/
def execLastFrame (s : State) : Host.Outcome State Fault Refusal :=
  match s.scan with
  | some _ => .refused .overlappingOperation
  | none => .next (respond s .consumer .ok s.lastFrame)

end Sys2Proof.Machine
end

