-- ==== Sys2Proof/Machine/Producer.lean ====
section
/-!
DEFINITION. The producer's operation (40_submit.md).
-/
namespace Sys2Proof.Machine

/-- SUBMIT (R100): CAPACITY_EXCEEDED if the payload exceeds `QCAP` (R101), else QUEUE_FULL if it exceeds the free space
(R102), else the whole payload is appended (R103). It does not touch a POLL's view (R53). -/
def execSubmit (payload : List Byte) (s : State) : Host.Outcome State Fault Refusal :=
  if s.qcap < payload.length then .next (respond s .producer .capacityExceeded none)
  else if freeSpace s < payload.length then .next (respond s .producer .queueFull none)
  else .next (respond (queueWrite s payload) .producer .ok none)

end Sys2Proof.Machine
end

