-- ==== Sys2Proof/Machine/Reserved.lean ====
section
/-!
DEFINITION. The reserved command words (30_encoding.md R72): "A model refuses them: it gives them no meaning and takes no
step." Each refusal carries the word.
-/
namespace Sys2Proof.Machine

/-- RESERVED_OP0 (R72). -/
def execReservedOp0 (low : BitVec 12) (_ : State) : Host.Outcome State Fault Refusal :=
  .refused (.reservedCommandWord (0#4 ++ low))

/-- RESERVED_OP4_7 (R72). -/
def execReservedOp4to7 (low : BitVec 14) (_ : State) : Host.Outcome State Fault Refusal :=
  .refused (.reservedCommandWord (1#2 ++ low))

/-- RESERVED_OP8_F (R72). -/
def execReservedOp8toF (low : BitVec 15) (_ : State) : Host.Outcome State Fault Refusal :=
  .refused (.reservedCommandWord (1#1 ++ low))

/-- RESERVED_POLL_LEN (R72). -/
def execReservedPollLen (len : BitVec 12) (_ : State) : Host.Outcome State Fault Refusal :=
  .refused (.reservedCommandWord (2#4 ++ len))

/-- RESERVED_LAST_FRAME_LEN (R72). -/
def execReservedLastFrameLen (len : BitVec 12) (_ : State) : Host.Outcome State Fault Refusal :=
  .refused (.reservedCommandWord (3#4 ++ len))

end Sys2Proof.Machine
end

