-- ==== Sys2Proof/Machine/ScanRows.lean ====
section
/-!
DEFINITION. The six rows of the sync-search machine (41_poll_fsm.md R123 to R129), each one pass of R122's loop on a POLL in
progress. A row whose scan state or byte class does not hold takes no transition and is refused (log entry 11).
-/
namespace Sys2Proof.Machine

/-- FSM_SYNC_IN_SEEK_FIRST (R123). -/
def execFsmSyncInSeekFirst (s : State) : Host.Outcome State Fault Refusal :=
  match scanIn s .seekFirstSync with
  | some sc =>
    if scanByte sc = some Config.syncByte then .next (matchFirstSync s sc) else .refused .transitionNotEnabled
  | none => .refused .transitionNotEnabled

/-- FSM_OTHER_IN_SEEK_FIRST (R124), for a byte `b` other than 0xAA. -/
def execFsmOtherInSeekFirst (b : Byte) (s : State) : Host.Outcome State Fault Refusal :=
  match scanIn s .seekFirstSync with
  | some sc =>
    if scanByte sc = some b ∧ b ≠ Config.syncByte then .next (skipGarbage s sc) else .refused .transitionNotEnabled
  | none => .refused .transitionNotEnabled

/-- FSM_SYNC_IN_SEEK_SECOND (R125). -/
def execFsmSyncInSeekSecond (s : State) : Host.Outcome State Fault Refusal :=
  match scanIn s .seekSecondSync with
  | some sc =>
    if scanByte sc = some Config.syncByte then .next (matchSecondSync s sc) else .refused .transitionNotEnabled
  | none => .refused .transitionNotEnabled

/-- FSM_OTHER_IN_SEEK_SECOND (R126), for a byte `b` other than 0xAA. -/
def execFsmOtherInSeekSecond (b : Byte) (s : State) : Host.Outcome State Fault Refusal :=
  match scanIn s .seekSecondSync with
  | some sc =>
    if scanByte sc = some b ∧ b ≠ Config.syncByte then .next (failSecondSync s sc) else .refused .transitionNotEnabled
  | none => .refused .transitionNotEnabled

/-- FSM_BODY_COMPLETE (R128, R129): at least 17 bytes are left. -/
def execFsmBodyComplete (s : State) : Host.Outcome State Fault Refusal :=
  match scanIn s .awaitingBody with
  | some sc =>
    if Config.bodyLen ≤ (scanLeft sc).length then .next (takeCandidate s sc) else .refused .transitionNotEnabled
  | none => .refused .transitionNotEnabled

/-- FSM_BODY_INCOMPLETE (R127): fewer than 17 bytes are left. -/
def execFsmBodyIncomplete (s : State) : Host.Outcome State Fault Refusal :=
  match scanIn s .awaitingBody with
  | some sc =>
    if (scanLeft sc).length < Config.bodyLen then .next (leaveIncomplete s sc) else .refused .transitionNotEnabled
  | none => .refused .transitionNotEnabled

end Sys2Proof.Machine
end

