-- ==== Sys2Proof/Machine/Dispatch.lean ====
section
/-!
DEFINITION. One arm for each instruction.
-/
namespace Sys2Proof.Machine

/-- What one instruction does to the block. -/
def exec (i : Instr) (s : State) : Host.Outcome State Fault Refusal :=
  match i with
  | .submit payload => Sys2Proof.Machine.execSubmit payload s
  | .poll => Sys2Proof.Machine.execPoll s
  | .lastFrame => Sys2Proof.Machine.execLastFrame s
  | .reservedOp0 low => Sys2Proof.Machine.execReservedOp0 low s
  | .reservedOp4to7 low => Sys2Proof.Machine.execReservedOp4to7 low s
  | .reservedOp8toF low => Sys2Proof.Machine.execReservedOp8toF low s
  | .reservedPollLen len => Sys2Proof.Machine.execReservedPollLen len s
  | .reservedLastFrameLen len => Sys2Proof.Machine.execReservedLastFrameLen len s
  | .fsmSyncInSeekFirst => Sys2Proof.Machine.execFsmSyncInSeekFirst s
  | .fsmOtherInSeekFirst b => Sys2Proof.Machine.execFsmOtherInSeekFirst b s
  | .fsmSyncInSeekSecond => Sys2Proof.Machine.execFsmSyncInSeekSecond s
  | .fsmOtherInSeekSecond b => Sys2Proof.Machine.execFsmOtherInSeekSecond b s
  | .fsmBodyComplete => Sys2Proof.Machine.execFsmBodyComplete s
  | .fsmBodyIncomplete => Sys2Proof.Machine.execFsmBodyIncomplete s

end Sys2Proof.Machine
end

