-- ==== Sys2Proof/Machine/Fetch.lean ====
section
/-!
DEFINITION. What the block does next. While a POLL is in progress it is the next row of the sync-search machine, or the
POLL's end (R7, R122); else it is the oldest thing the environment has issued (R52), admitted only from the agent and the
context the spec gives it (60_exceptions.md R249, R250).
-/
namespace Sys2Proof.Machine

/-- What a step finds to do. -/
inductive Fetched where
  /-- Run `i` on the state `t`, from which the instruction's own bytes have been taken. -/
  | run (i : Instr) (t : State)
  /-- End the POLL in progress. -/
  | endPoll (sc : Scan)
  /-- Construct the block anew, with the inputs behind the reset kept. -/
  | reset (qcap : Nat) (rest : List Input)
  /-- Nothing has been issued. -/
  | idle
  /-- What was issued is refused. -/
  | refuse (r : Refusal)
  deriving DecidableEq, Repr

/-- The agent an operation belongs to (R71, R249); none for a reserved word and for a row of the sync-search machine. -/
def agentOf : Instr → Option Agent
  | .submit _ => some .producer
  | .poll => some .consumer
  | .lastFrame => some .consumer
  | _ => none

/-- Whether an operation may not be issued from within the handling of a frame event: SUBMIT and POLL (R277). -/
def barredInHandler : Instr → Bool
  | .submit _ => true
  | .poll => true
  | _ => false

/-- Why a request is refused before its bytes are looked at: a second agent, or an overlapping operation (R250(d)).
Where both hold the second agent is named (DESIGN CHOICE, safe, log entry 26). -/
def refuseRequest (r : Request) : Option Refusal :=
  if r.port ≠ 0 then some .secondAgent
  else if r.context = .overlapping then some .overlappingOperation
  else none

/-- Why a decoded operation is refused to its issuer: re-entry (R250(e)) or the wrong agent (R250(f)). Where
both hold re-entry is named (DESIGN CHOICE, safe, log entry 26). -/
def refuseOperation (r : Request) (i : Instr) : Option Refusal :=
  if r.context = .inFrameHandler ∧ barredInHandler i = true then some .reentrantOperation
  else
    match agentOf i with
    | some a => if a = r.agent then none else some .wrongAgent
    | none => none

/-- The inputs after a command of `r` has been taken and `left` bytes of it are left over (R73; log entry 13). -/
def inputsAfter (r : Request) (left : List Byte) (rest : List Input) : List Input :=
  if left = [] then rest else .request { r with bytes := left } :: rest

/-- The next command of a request. The spec gives no order among the refusals of R250; where several hold the first of these is
named: second agent, overlapping operation, incomplete command, re-entry, wrong agent, and then the reserved word, in its
meaning (DESIGN CHOICE, safe, log entry 26). -/
def fetchRequest (s : State) (r : Request) (rest : List Input) : Fetched :=
  match refuseRequest r with
  | some e => .refuse e
  | none =>
    match decodeCommand r.bytes with
    | .error _ => .refuse .incompleteCommand
    | .ok (i, left) =>
      match refuseOperation r i with
      | some e => .refuse e
      | none => .run i { s with inputs := inputsAfter r left rest }

/-- The oldest input. -/
def fetchInput (s : State) : Fetched :=
  match s.inputs with
  | [] => .idle
  | .reset qcap :: rest => .reset qcap rest
  | .request r :: rest => fetchRequest s r rest

/-- The next row of a POLL in progress, or its end (R122). -/
def fetchRow (s : State) (sc : Scan) : Fetched :=
  if sc.done then .endPoll sc
  else
    match DecoderState.ofBits s.decoderState with
    | none => .refuse .decoderStateUnused
    | some d =>
      match decodeScan d (scanLeft sc) with
      | some i => .run i s
      | none => .endPoll sc

/-- What a step finds to do: a POLL in progress comes first, since an operation is atomic (R7; log entry 5). -/
def fetch (s : State) : Fetched :=
  match s.scan with
  | some sc => fetchRow s sc
  | none => fetchInput s

/-- A reset between two operations: everything is discarded (R272), what the environment issues after it is kept
(log entry 16). -/
def resetBlock (qcap : Nat) (rest : List Input) : Host.Outcome State Fault Refusal :=
  match construct qcap with
  | .next t => .next { t with inputs := rest }
  | .fault r => .fault r
  | .refused r => .refused r

/-- `s` with the command word `w`, and a payload of `LEN` zero bytes, as the oldest input, issued by the agent the
operation belongs to; no POLL is in progress (log entry 8). -/
def placeCommand (s : State) (w : Word16) : State :=
  let bytes := wordBytes w ++ List.replicate (cmdLen w).toNat 0#8
  let agent :=
    match decodeCommand bytes with
    | .ok (i, _) => (agentOf i).getD .consumer
    | .error _ => .consumer
  { s with
    scan := none
    decoderState := DecoderState.seekFirstSync.bits
    inputs := .request { agent := agent, port := 0, context := .normal, bytes := bytes } :: s.inputs }

/-- `s` with a POLL just started on a buffer whose oldest byte is `b` (log entry 8). -/
def placeByte (s : State) (b : Byte) : State := pollBegin { s with q := b :: s.q.drop 1 }

end Sys2Proof.Machine
end

