-- ==== Sys2Proof/Machine/Step.lean ====
section
/-!
DEFINITION. One step of the block, and where a step's instruction is placed.
-/
namespace Sys2Proof.Machine

/-- One step: a state outside the spec is refused (R250(b), R250(c)); else the block does what `fetch` finds. -/
def step (s : State) : Host.Outcome State Fault Refusal :=
  match unsupported s with
  | some r => .refused r
  | none =>
    match fetch s with
    | .run i t => exec i t
    | .endPoll sc => pollEnd s sc
    | .reset qcap rest => resetBlock qcap rest
    | .idle => .next s
    | .refuse r => .refused r

/-- `s` with the instruction whose bits are `w` placed where `step` finds its next instruction: a 16-bit command word as
the oldest input, an 8-bit view byte as the first byte of a POLL just started (log entry 8). -/
def State.withFetchWord (s : State) (nbits w : Nat) : State :=
  if nbits = 16 then placeCommand s (BitVec.ofNat 16 w)
  else if nbits = 8 then placeByte s (BitVec.ofNat 8 w)
  else s

end Sys2Proof.Machine
end

