-- ==== Sys2Proof/Machine/Assembler.lean ====
section
/-!
DEFINITION. The assembler syntax of 30_encoding.md R76: one operation a line, `;` starts a comment, payload bytes as two
hex digits, and the pseudo-instruction FEED. Text is a list of characters.
-/
namespace Sys2Proof.Machine

/-- `FEED b0 b1 ...`: for each byte, a SUBMIT of that byte and a POLL (R76). -/
def feed (bytes : List Byte) : List Instr := bytes.flatMap fun b => [.submit [b], .poll]

/-- The value of a hex digit. -/
def hexValue (c : Char) : Option Nat :=
  if '0' ≤ c ∧ c ≤ '9' then some (c.toNat - 48)
  else if 'A' ≤ c ∧ c ≤ 'F' then some (c.toNat - 55)
  else if 'a' ≤ c ∧ c ≤ 'f' then some (c.toNat - 87)
  else none

/-- The hex digit of a value below 16. -/
def hexDigit (n : Nat) : Char := if n < 10 then Char.ofNat (48 + n) else Char.ofNat (55 + n)

/-- A byte from its two hex digits (R8). -/
def byteOfHex : List Char → Option Byte
  | [h, l] =>
    match hexValue h, hexValue l with
    | some a, some b => some (BitVec.ofNat 8 (16 * a + b))
    | _, _ => none
  | _ => none

/-- The two hex digits of a byte (R8). -/
def hexOfByte (b : Byte) : List Char := [hexDigit (b.toNat / 16), hexDigit (b.toNat % 16)]

/-- The payload bytes of a line; none if a word is not two hex digits. -/
def bytesOfWords : List (List Char) → Option (List Byte)
  | [] => some []
  | w :: ws =>
    match byteOfHex w, bytesOfWords ws with
    | some b, some bs => some (b :: bs)
    | _, _ => none

/-- A text cut at every character that `cut` names. -/
def splitAtChars (cut : Char → Bool) : List Char → List (List Char)
  | [] => [[]]
  | c :: cs =>
    match splitAtChars cut cs with
    | w :: ws => if cut c then [] :: w :: ws else (c :: w) :: ws
    | [] => [[c]]

/-- The words of a line, its comment left out. -/
def lineWords (line : List Char) : List (List Char) :=
  (splitAtChars (fun c => c == ' ' || c == '\t' || c == '\r') (line.takeWhile (fun c => c != ';'))).filter
    (fun w => !w.isEmpty)

/-- The operations of one line; none if it is not a line of R76. -/
def assembleLine (line : List Char) : Option (List Instr) :=
  match lineWords line with
  | [] => some []
  | word :: operands =>
    if word = ['S', 'U', 'B', 'M', 'I', 'T'] then (bytesOfWords operands).map fun bs => [.submit bs]
    else if word = ['F', 'E', 'E', 'D'] then (bytesOfWords operands).map feed
    else if operands ≠ [] then none
    else if word = ['P', 'O', 'L', 'L'] then some [.poll]
    else if word = ['L', 'A', 'S', 'T', '_', 'F', 'R', 'A', 'M', 'E'] then some [.lastFrame]
    else none

/-- The operations of a list of lines. -/
def assembleLines : List (List Char) → Option (List Instr)
  | [] => some []
  | l :: ls =>
    match assembleLine l, assembleLines ls with
    | some is, some rest => some (is ++ rest)
    | _, _ => none

/-- The operations of a program text (R76). -/
def assemble (text : List Char) : Option (List Instr) := assembleLines (splitAtChars (fun c => c == '\n') text)

/-- The line that spells an operation; none for what R76 gives no syntax. -/
def printInstr : Instr → Option (List Char)
  | .submit payload => some (['S', 'U', 'B', 'M', 'I', 'T'] ++ payload.flatMap fun b => ' ' :: hexOfByte b)
  | .poll => some ['P', 'O', 'L', 'L']
  | .lastFrame => some ['L', 'A', 'S', 'T', '_', 'F', 'R', 'A', 'M', 'E']
  | _ => none

end Sys2Proof.Machine
end

