-- ==== Sys2Proof/Machine/Pretty.lean ====
section
/-!
DEFINITION. The companion converter TO_PRETTY (45_unit_converter.md). It is outside the block and has no command code
(R220); it reads one RawFrame and no state (R225).
-/
namespace Sys2Proof.Machine

/-- The engineering-unit view of a RawFrame, over the number type `PRETTY_REAL`; `csum` is not a field of it (R223). -/
structure PrettyFrame (α : Type) where
  index : Byte
  yaw : α
  pitch : α
  roll : α
  xAcc : α
  yAcc : α
  zAcc : α
  motionIntent : Byte
  motionRequest : Byte
  rsvd : Byte
  deriving DecidableEq, Repr

/-- Degrees: `raw / 100` (R221). -/
def degrees (w : Word16) : Rat := (int16 w : Rat) / 100

/-- Metres per second squared: `raw * 9.80665 / 1000`, that is `raw * 980665 / 100000000` (R222). -/
def metresPerSecondSquared (w : Word16) : Rat := (int16 w : Rat) * 980665 / 100000000

/-- `TO_PRETTY(f)` over a number type (R220, R224). -/
def toPrettyIn {α : Type} (real : Config.PrettyReal α) (f : RawFrame) : PrettyFrame α where
  index := f.index
  yaw := real.ofExact (degrees f.yaw)
  pitch := real.ofExact (degrees f.pitch)
  roll := real.ofExact (degrees f.roll)
  xAcc := real.ofExact (metresPerSecondSquared f.xAcc)
  yAcc := real.ofExact (metresPerSecondSquared f.yAcc)
  zAcc := real.ofExact (metresPerSecondSquared f.zAcc)
  motionIntent := f.motionIntent
  motionRequest := f.motionRequest
  rsvd := f.rsvd

/-- `TO_PRETTY(f)` over the exact rationals, its reference meaning (R224). -/
def toPretty (f : RawFrame) : PrettyFrame Rat := toPrettyIn Config.exactReal f

/-- Whether a represented value is within 0.001 of the exact one, all that a float implementation promises (R224). -/
def withinTolerance {α : Type} (real : Config.PrettyReal α) (a : α) (exact : Rat) : Bool :=
  decide (real.toExact a - exact ≤ Config.prettyTolerance ∧ exact - real.toExact a ≤ Config.prettyTolerance)

end Sys2Proof.Machine
end

