-- ==== Sys2Proof/Safety.lean ====
section
/-!
DEFINITION. What claims about the block are stated over: its invariants (10_state.md R28, 41_poll_fsm.md R133), where the
first sync marker of a view is (R131), and runs of operations with the frame events they deliver (R135).
-/
namespace Sys2Proof.Machine

/-! ## Invariants -/

/-- The scan invariant of R133 for scan state `d`: the unreleased bytes behind `rel` are the part of a sync marker matched
so far. -/
def ScanAt : DecoderState → Scan → Prop
  | .seekFirstSync, sc => sc.rel = sc.i
  | .seekSecondSync, sc => sc.rel + 1 = sc.i ∧ sc.view[sc.rel]? = some Config.syncByte
  | .awaitingBody, sc =>
    sc.rel + 2 = sc.i ∧ sc.view[sc.rel]? = some Config.syncByte ∧ sc.view[sc.rel + 1]? = some Config.syncByte

/-- A POLL in progress: its view is a prefix of the buffer (R53), its indices are within the view (R24), its event is the
latest frame (R138), the scan invariant holds while the loop runs, and a loop left by R127 or R128 was left in
AwaitingBody. -/
def ScanOk (s : State) (sc : Scan) : Prop :=
  sc.view <+: s.q ∧ sc.i ≤ sc.view.length ∧ sc.rel ≤ sc.view.length ∧
  (sc.ev = none ∨ sc.ev = s.lastFrame) ∧
  (sc.done = false → sc.ev = none ∧ ∃ d, DecoderState.ofBits s.decoderState = some d ∧ ScanAt d sc) ∧
  (sc.done = true → s.decoderState = DecoderState.awaitingBody.bits)

/-- The invariant of the block. The first three clauses and the boundary clause are R28 with R4's bound on `QCAP`; the
last covers a POLL in progress. -/
def State.Inv (s : State) : Prop :=
  Config.minQcap ≤ s.qcap ∧ s.q.length ≤ s.qcap ∧ s.lastFrame.all frameOk = true ∧
  (s.scan = none → s.decoderState = DecoderState.seekFirstSync.bits) ∧
  ∀ sc, s.scan = some sc → ScanOk s sc

/-! ## The first sync marker of a view -/

/-- A sync marker begins at index `k` (R43, R63). -/
def SyncAt (view : List Byte) (k : Nat) : Prop :=
  view[k]? = some Config.syncByte ∧ view[k + 1]? = some Config.syncByte

/-- The first sync marker begins at index `k`. -/
def FirstSync (view : List Byte) (k : Nat) : Prop := SyncAt view k ∧ ∀ j, j < k → ¬ SyncAt view j

/-- The view holds no whole sync marker. -/
def NoSync (view : List Byte) : Prop := ∀ k, ¬ SyncAt view k

/-- The 17 bytes behind a sync marker at index `k` (R61, R128). -/
def bodyAfter (view : List Byte) (k : Nat) : List Byte := (view.drop (k + 2)).take Config.bodyLen

/-! ## Runs -/

/-- `n` steps of the block, stopping at the first fault or refusal; the same as the host's `core.run n`. -/
def runSteps : Nat → State → Host.Outcome State Fault Refusal
  | 0, s => .next s
  | n + 1, s =>
    match step s with
    | .next t => runSteps n t
    | .fault r => .fault r
    | .refused r => .refused r

/-- The frame events that running `i`, with the state `t` after it, delivers: the frame of a POLL's response (R138). -/
def eventsOf (i : Instr) (t : State) : List RawFrame :=
  match i with
  | .poll => (t.response.bind Response.frame).toList
  | _ => []

/-- Whether the operation that led to `t` returned one of SUBMIT's two refusal statuses (R240). -/
def submitRefused (t : State) : Bool :=
  match t.response with
  | some r => r.status == .capacityExceeded || r.status == .queueFull
  | none => false

/-- A run of operations with the events it delivers; none if one of them does not complete or a SUBMIT is refused. -/
def runAccepted : List Instr → State → Option (State × List RawFrame)
  | [], s => some (s, [])
  | i :: is, s =>
    match exec i s with
    | .next t =>
      if submitRefused t then none
      else
        match runAccepted is t with
        | some (u, events) => some (u, eventsOf i t ++ events)
        | none => none
    | _ => none

/-- The producer's and the consumer's two operations of a stream: SUBMIT and POLL. -/
def isFeedOp : Instr → Bool
  | .submit _ => true
  | .poll => true
  | _ => false

/-- The stream that a list of operations submits, in order (R44). -/
def streamOf (ops : List Instr) : List Byte := ops.flatMap cmdPayload

/-- The harness loop DRAIN with a bound: `n` POLLs (95_test_vectors.md). -/
def drain (n : Nat) : List Instr := List.replicate n .poll

/-- Whether an instruction is one of the three operations of the block (R71). -/
def isOperation : Instr → Bool
  | .submit _ => true
  | .poll => true
  | .lastFrame => true
  | _ => false

/-- Whether an instruction is a row of the sync-search machine (R123 to R128). -/
def isRow (i : Instr) : Bool := (rowState i).isSome

/-- Whether a command word is reserved (R72). -/
def reservedWord (w : Word16) : Bool :=
  cmdOp w == 0#4 || decide (4 ≤ (cmdOp w).toNat) ||
    ((cmdOp w == 2#4 || cmdOp w == 3#4) && !(cmdLen w == 0#12))

end Sys2Proof.Machine
end

