-- ==== Sys2Proof/Certificates/Slice0/Obligations.lean ====
section
/-!
DEFINITION. The statements for the provers, each from numbered rules of spec/. The field `response` is what an operation
returns (30_encoding.md R74); `qcap` is `QCAP`, over which every statement quantifies.
-/
open Sys2Proof Sys2Proof.Machine

/-! ## Reset and construction -/

/-- R29, R270: construction with a capacity the spec admits leaves every piece of state at its reset value, and
`State.reset` is such a construction. That its capacity is 76 is log entry 1's choice and not stated. -/
def Obligations.ConstructionLeavesResetValues : Prop :=
  (∀ qcap, 19 ≤ qcap → ∃ t, construct qcap = .next t ∧ t.q = [] ∧ t.lastFrame = none ∧
    t.decoderState = DecoderState.seekFirstSync.bits ∧ t.scan = none ∧ t.qcap = qcap) ∧
  construct State.reset.qcap = .next State.reset

/-- R275, R250(c): construction is refused exactly below one frame, and no step is taken with such a capacity (the
step's refusal, whatever else holds, is the model's choice, log entries 24 and 26). -/
def Obligations.CapacityBelowFrameIsRefused : Prop :=
  (∀ qcap, construct qcap = .refused .capacityBelowFrame ↔ qcap < 19) ∧
  ∀ s, s.qcap < 19 → step s = .refused .capacityBelowFrame

/-- R272: a reset is taken only between operations; it discards the buffered bytes and the last frame. That what
the environment issued behind it is kept and the latest response is cleared is the model's choice (log entry 16). -/
def Obligations.ResetDiscardsBufferAndLastFrame : Prop :=
  ∀ s qcap rest, unsupported s = none → s.scan = none → s.inputs = .reset qcap :: rest → 19 ≤ qcap →
    step s = .next { State.constructed qcap with inputs := rest }

/-- R28, R133: the machine right after any construction meets the invariant. -/
def Obligations.ConstructionMeetsInvariant : Prop :=
  State.reset.Inv ∧ ∀ qcap t, construct qcap = .next t → t.Inv

/-- R28, R133: every step keeps the invariant of the block, from every state that meets it, whatever the environment
issues. -/
def Obligations.EveryStepKeepsInvariant : Prop :=
  ∀ s t, s.Inv → step s = .next t → t.Inv

/-! ## Steps -/

/-- R52, R73, R249: where no POLL is in progress and the oldest input is a request of the attached agent whose bytes spell
a command that agent may issue, a step is `exec` of that command, its bytes taken from the request. That bytes left over are
the agent's next command is the model's reading (log entry 13). -/
def Obligations.StepRunsDecodedCommand : Prop :=
  ∀ s r rest i left, unsupported s = none → s.scan = none → s.inputs = .request r :: rest →
    refuseRequest r = none → decodeCommand r.bytes = .ok (i, left) → refuseOperation r i = none →
    step s = exec i { s with inputs := inputsAfter r left rest }

/-- Log entry 5 (DEDUCED, the model's reading of R7 and R122): while a POLL is in progress a step takes one row and what has been
issued waits, where R7 makes the whole POLL one transition. Where the loop is running, that step is `exec` of the row of R122's
pass that the scan state and the bytes left decode to. -/
def Obligations.StepRunsDecodedRow : Prop :=
  ∀ s sc d i, unsupported s = none → s.scan = some sc → sc.done = false →
    DecoderState.ofBits s.decoderState = some d → decodeScan d (scanLeft sc) = some i → step s = exec i s

/-- Log entries 5 and 6 (DEDUCED, the model's reading): a POLL in progress ends in a step of its own, and the bit `done` is the
exit of R122's loop. What that step does is R131, R132 and R138: `rel` bytes are released, the scan state is back at SeekFirstSync
and the response carries the event. -/
def Obligations.StepEndsPoll : Prop :=
  ∀ s sc d, unsupported s = none → s.scan = some sc → sc.rel ≤ sc.view.length →
    DecoderState.ofBits s.decoderState = some d → (sc.done = true ∨ decodeScan d (scanLeft sc) = none) →
    step s = .next { s with
      q := s.q.drop sc.rel
      decoderState := DecoderState.seekFirstSync.bits
      scan := none
      response := some { agent := .consumer, status := .ok, frame := sc.ev } }

/-- R250(b), (d), (e), (f), R249, R277, R278: what a step refuses, each by its own name; a LAST_FRAME of the producer is
refused from within a frame handler too. How a request says where it is issued from, and which name is
given where several hold, is the model's choice (log entries 14, 15 and 26). -/
def Obligations.ForbiddenIssuesAreRefused : Prop :=
  (∀ s, 19 ≤ s.qcap → s.decoderState = 3#2 → step s = .refused .decoderStateUnused) ∧
  ∀ s r rest, unsupported s = none → s.scan = none → s.inputs = .request r :: rest →
    (r.port ≠ 0 → step s = .refused .secondAgent) ∧
    (r.port = 0 → r.context = .overlapping → step s = .refused .overlappingOperation) ∧
    ∀ i left, r.port = 0 → r.context ≠ .overlapping → decodeCommand r.bytes = .ok (i, left) →
      (r.context = .inFrameHandler → (i = .poll ∨ ∃ b, i = .submit b) → step s = .refused .reentrantOperation) ∧
      (r.context = .normal → r.agent = .consumer → (∃ b, i = .submit b) → step s = .refused .wrongAgent) ∧
      (r.context = .normal → r.agent = .producer → i = .poll → step s = .refused .wrongAgent) ∧
      (r.agent = .producer → i = .lastFrame → step s = .refused .wrongAgent)

/-! ## SUBMIT -/

/-- R101: a payload longer than `QCAP` returns CAPACITY_EXCEEDED and changes nothing, whatever the buffer holds. -/
def Obligations.SubmitOverCapacity : Prop :=
  ∀ payload s, s.qcap < payload.length →
    exec (.submit payload) s =
      .next { s with response := some { agent := .producer, status := .capacityExceeded, frame := none } }

/-- R102, R242: a payload within `QCAP` but beyond the free space returns QUEUE_FULL and changes nothing; the failure is
transient, since the same SUBMIT succeeds wherever the free space suffices. -/
def Obligations.SubmitBeyondFreeSpace : Prop :=
  ∀ payload s, payload.length ≤ s.qcap → s.qcap - s.q.length < payload.length →
    exec (.submit payload) s =
      .next { s with response := some { agent := .producer, status := .queueFull, frame := none } } ∧
    ∀ u, u.qcap = s.qcap → payload.length ≤ u.qcap - u.q.length → exec (.submit payload) u = .next { u with
      q := u.q ++ payload
      response := some { agent := .producer, status := .ok, frame := none } }

/-- R103: a payload within the free space is appended whole, in order, and returns OK; the buffer stays within `QCAP`, LastFrame
and DecoderState are unchanged, and the next POLL's view holds the payload as one block. -/
def Obligations.SubmitAppendsPayload : Prop :=
  ∀ payload s, s.q.length ≤ s.qcap → payload.length ≤ s.qcap - s.q.length →
    ∃ t, exec (.submit payload) s = .next t ∧
      t = { s with
        q := s.q ++ payload
        response := some { agent := .producer, status := .ok, frame := none } } ∧
      t.q.length = s.q.length + payload.length ∧ t.q.length ≤ t.qcap ∧
      t.lastFrame = s.lastFrame ∧ t.decoderState = s.decoderState ∧
      (pollBegin t).scan.map Scan.view = some (s.q ++ payload)

/-- R104: a zero-length SUBMIT returns OK and changes nothing. -/
def Obligations.SubmitOfNothing : Prop :=
  ∀ s, exec (.submit []) s = .next { s with response := some { agent := .producer, status := .ok, frame := none } }

/-- R106: the five boundary cases, and CAPACITY_EXCEEDED where both failures apply. -/
def Obligations.SubmitBoundaries : Prop :=
  ∀ payload s, s.q.length ≤ s.qcap → ∃ t status, exec (.submit payload) s = .next t ∧
    t.response = some { agent := .producer, status := status, frame := none } ∧
    (payload.length = s.qcap → s.q = [] → status = .ok ∧ t.q.length = t.qcap) ∧
    (payload.length = s.qcap → 1 ≤ s.q.length → status = .queueFull) ∧
    (payload.length = s.qcap + 1 → status = .capacityExceeded) ∧
    (payload.length = s.qcap - s.q.length → status = .ok ∧ t.q.length = s.qcap) ∧
    (payload.length = s.qcap - s.q.length + 1 → payload.length ≤ s.qcap → status = .queueFull) ∧
    (s.qcap < payload.length → s.qcap - s.q.length < payload.length ∧ status = .capacityExceeded)

/-- R241: CAPACITY_EXCEEDED is returned exactly for a payload longer than `QCAP`; the same SUBMIT returns it again in every
state, and it records no value, because no operation changes `QCAP`. -/
def Obligations.CapacityExceededIsPermanent : Prop :=
  (∀ i s t, exec i s = .next t → t.qcap = s.qcap) ∧
  ∀ payload s t, exec (.submit payload) s = .next t →
    (t.response.map Response.status = some .capacityExceeded ↔ s.qcap < payload.length) ∧
    (t.response.map Response.status = some .capacityExceeded → ∀ u, u.qcap = s.qcap →
      exec (.submit payload) u =
        .next { u with response := some { agent := .producer, status := .capacityExceeded, frame := none } })

/-- R100, R103: the frame of SUBMIT. LastFrame, DecoderState, a POLL in progress and its view, `QCAP` and the inputs are
unchanged, and every byte the buffer held stays in its place. -/
def Obligations.SubmitFrame : Prop :=
  ∀ payload s t, exec (.submit payload) s = .next t →
    t.lastFrame = s.lastFrame ∧ t.decoderState = s.decoderState ∧ t.scan = s.scan ∧ t.qcap = s.qcap ∧
    t.inputs = s.inputs ∧ (t.q = s.q ∨ t.q = s.q ++ payload) ∧ ∀ k, k < s.q.length → t.q[k]? = s.q[k]?

/-- R240, R246: an operation that returns another status than OK changes nothing but what it returns. -/
def Obligations.FailedOperationChangesNothing : Prop :=
  ∀ i s t r, isOperation i = true → exec i s = .next t → t.response = some r → r.status ≠ .ok →
    t = { s with response := some r } ∧ r.frame = none

/-! ## POLL -/

/-- R121, R243: a POLL of an empty buffer returns QUEUE_EMPTY and changes nothing. -/
def Obligations.PollOfEmptyBuffer : Prop :=
  ∀ s, s.scan = none → s.q = [] →
    exec .poll s = .next { s with response := some { agent := .consumer, status := .queueEmpty, frame := none } }

/-- R131, first two rows: a view with no sync marker is released whole, but for a trailing lone 0xAA. -/
def Obligations.PollWithoutSync : Prop :=
  ∀ s, s.scan = none → s.q ≠ [] → NoSync s.q →
    exec .poll s = .next { s with
      q := if s.q.getLast? = some Config.syncByte then [Config.syncByte] else []
      decoderState := DecoderState.seekFirstSync.bits
      response := some { agent := .consumer, status := .ok, frame := none } }

/-- R127, R131, third row: behind the first sync marker are fewer than 17 bytes; everything from the marker on is
retained. -/
def Obligations.PollOfIncompleteCandidate : Prop :=
  ∀ s k, s.scan = none → FirstSync s.q k → s.q.length < k + 19 →
    exec .poll s = .next { s with
      q := s.q.drop k
      decoderState := DecoderState.seekFirstSync.bits
      response := some { agent := .consumer, status := .ok, frame := none } }

/-- R128, R129, R131: the 17 bytes behind the first sync marker pass the checksum; the frame becomes LastFrame and the event,
and everything through the candidate's end is released. -/
def Obligations.PollAcceptsCandidate : Prop :=
  ∀ s k, s.scan = none → FirstSync s.q k → k + 19 ≤ s.q.length → checksumOk (bodyAfter s.q k) = true →
    exec .poll s = .next { s with
      q := s.q.drop (k + 19)
      lastFrame := some (unpack (bodyAfter s.q k))
      decoderState := DecoderState.seekFirstSync.bits
      response := some { agent := .consumer, status := .ok, frame := some (unpack (bodyAfter s.q k)) } }

/-- R128, R129, R162: they fail the checksum; the candidate is released just so, silently, and LastFrame is unchanged. -/
def Obligations.PollRejectsCandidate : Prop :=
  ∀ s k, s.scan = none → FirstSync s.q k → k + 19 ≤ s.q.length → checksumOk (bodyAfter s.q k) = false →
    exec .poll s = .next { s with
      q := s.q.drop (k + 19)
      decoderState := DecoderState.seekFirstSync.bits
      response := some { agent := .consumer, status := .ok, frame := none } }

/-- R122, R7: the composed, atomic POLL is refined step for step by the machine that takes one row a step: from the POLL's
start, at most `L + 1` rows and the end reach the very state the atomic POLL answers. That a step takes one row is the model's
reading (log entry 5). -/
def Obligations.RowByRowScanRefinesPoll : Prop :=
  ∀ s, 19 ≤ s.qcap → s.scan = none → s.q ≠ [] →
    ∃ n t, n ≤ s.q.length + 2 ∧ exec .poll s = .next t ∧ runSteps n (pollBegin s) = .next t

/-- R122, R132, R134(a): a POLL always completes, never releases more bytes than its view holds, and leaves no scan in progress
and the scan state at SeekFirstSync. -/
def Obligations.PollAlwaysCompletes : Prop :=
  ∀ s, s.scan = none → s.decoderState = DecoderState.seekFirstSync.bits →
    ∃ t r n, exec .poll s = .next t ∧ n ≤ s.q.length ∧ t.q = s.q.drop n ∧ t.scan = none ∧
      t.decoderState = DecoderState.seekFirstSync.bits ∧ t.response = some r ∧ r.agent = .consumer ∧
      (r.status = .queueEmpty ↔ s.q = []) ∧ (r.status = .ok ↔ s.q ≠ [])

/-- R134: a POLL releases a prefix of its view (a), never a byte of a sync marker in progress or of an incomplete candidate
(b), and what it releases holds no whole sync marker but the one of a finished candidate at its end (c). -/
def Obligations.PollLosesNoCandidate : Prop :=
  ∀ s t, exec .poll s = .next t → ∃ n, n ≤ s.q.length ∧ t.q = s.q.drop n ∧
    (∀ k, FirstSync s.q k → s.q.length < k + 19 → n ≤ k) ∧
    (NoSync s.q → s.q.getLast? = some Config.syncByte → n < s.q.length) ∧
    ∀ k, FirstSync s.q k → k < n → k + 19 = n

/-- R107, R26: what a POLL does to the buffer, its status and its event depend on the buffer's content alone. -/
def Obligations.PollDependsOnBufferAlone : Prop :=
  ∀ s u t v, s.q = u.q → exec .poll s = .next t → exec .poll u = .next v →
    t.q = v.q ∧ t.response = v.response ∧ (s.lastFrame = u.lastFrame → t.lastFrame = v.lastFrame)

/-- R120: the frame of POLL. `QCAP` and the inputs are unchanged, every byte that stays in the buffer keeps its value and
order, and LastFrame is unchanged but for the frame of the event. -/
def Obligations.PollFrame : Prop :=
  ∀ s t, exec .poll s = .next t →
    t.qcap = s.qcap ∧ t.inputs = s.inputs ∧ t.q <:+ s.q ∧ t.scan = s.scan ∧
    (t.lastFrame = s.lastFrame ∨ ∃ f, t.lastFrame = some f ∧ t.response.map Response.frame = some (some f))

/-- R136: a POLL that releases nothing makes no progress: it delivers no event, and POLLs after it are all equal. -/
def Obligations.PollWithoutProgressRepeats : Prop :=
  ∀ s t, exec .poll s = .next t → t.q = s.q →
    t.lastFrame = s.lastFrame ∧ t.response.map Response.frame = some none ∧ exec .poll t = .next t

/-- R276: where a POLL makes no progress, the buffer holds at most 18 bytes, and a SUBMIT of at most `QCAP - 18` bytes
succeeds. -/
def Obligations.RetainedBytesLeaveRoom : Prop :=
  ∀ s t, exec .poll s = .next t → t.q = s.q →
    s.q.length ≤ 18 ∧ ∀ payload, payload.length ≤ s.qcap - 18 →
      exec (.submit payload) t = .next { t with
        q := t.q ++ payload
        response := some { agent := .producer, status := .ok, frame := none } }

/-- R275, R101, R245: with `QCAP <= 18`, a sync marker at the start of the buffer is retained for good: POLL returns OK without
progress, and once the buffer is full every SUBMIT of one or more bytes changes nothing and returns QUEUE_FULL. Where the payload
is longer than `QCAP`, R101 and R245 win over R275's wording, which names QUEUE_FULL for every such SUBMIT: the status is
CAPACITY_EXCEEDED. -/
def Obligations.SmallBufferLivelocks : Prop :=
  ∀ s, s.qcap ≤ 18 → s.scan = none → s.decoderState = DecoderState.seekFirstSync.bits → s.q.length ≤ s.qcap →
    SyncAt s.q 0 →
    exec .poll s = .next { s with response := some { agent := .consumer, status := .ok, frame := none } } ∧
    (s.q.length = s.qcap → ∀ payload, payload ≠ [] → ∃ t, exec (.submit payload) s = .next t ∧ t.q = s.q ∧
      (payload.length ≤ s.qcap → t.response.map Response.status = some .queueFull) ∧
      (s.qcap < payload.length → t.response.map Response.status = some .capacityExceeded))

/-- R137: a stray 0xAA directly before a frame makes the machine take the 17 bytes from the frame's second sync byte on; where
they fail the checksum the frame is lost, and only its `csum` byte and what follows stay. -/
def Obligations.FalseSyncLosesFrame : Prop :=
  ∀ s f rest, s.scan = none → s.q = Config.syncByte :: (wireFrame f ++ rest) →
    checksumOk (Config.syncByte :: (encodeFrame f).take 16) = false →
    exec .poll s = .next { s with
      q := f.csum :: rest
      decoderState := DecoderState.seekFirstSync.bits
      response := some { agent := .consumer, status := .ok, frame := none } }

/-- R186, R130: a known-good frame in its wire form comes back from POLL exactly, alone, and whatever follows it stays in the
buffer; a frame whose `csum` is inconsistent is rejected. -/
def Obligations.WireFrameRoundTrip : Prop :=
  ∀ s f rest, s.scan = none → s.q = wireFrame f ++ rest →
    (frameOk f = true → exec .poll s = .next { s with
      q := rest
      lastFrame := some f
      decoderState := DecoderState.seekFirstSync.bits
      response := some { agent := .consumer, status := .ok, frame := some f } }) ∧
    (frameOk f = false → exec .poll s = .next { s with
      q := rest
      decoderState := DecoderState.seekFirstSync.bits
      response := some { agent := .consumer, status := .ok, frame := none } })

/-- R135: two schedules of SUBMITs and POLLs that submit the same stream, none of its SUBMITs refused, and then drain the
buffer deliver the same sequence of frame events and end with the same LastFrame. -/
def Obligations.FragmentationInvariance : Prop :=
  ∀ s ops₁ ops₂ t₁ t₂ events₁ events₂ n, s.scan = none →
    ops₁.all isFeedOp = true → ops₂.all isFeedOp = true → streamOf ops₁ = streamOf ops₂ →
    runAccepted ops₁ s = some (t₁, events₁) → runAccepted ops₂ s = some (t₂, events₂) →
    t₁.q.length ≤ n → t₂.q.length ≤ n →
    ∃ u₁ u₂ rest₁ rest₂, runAccepted (drain n) t₁ = some (u₁, rest₁) ∧ runAccepted (drain n) t₂ = some (u₂, rest₂) ∧
      events₁ ++ rest₁ = events₂ ++ rest₂ ∧ u₁.lastFrame = u₂.lastFrame

/-- R53: a SUBMIT that runs between any two rows of a POLL in progress gives what one of the two serial orders gives: POLL, then
SUBMIT where it is accepted; SUBMIT, then POLL where it is refused. That a SUBMIT may run between two rows is the model's reading
of R53 (log entry 5). -/
def Obligations.ConcurrentSubmitIsSerial : Prop :=
  ∀ s payload n m u r, s.Inv → s.scan = none → s.q ≠ [] →
    runSteps n (pollBegin s) = .next m → m.scan ≠ none → exec (.submit payload) m = .next u →
    u.response = some r →
    ∃ k v, k ≤ s.q.length + 2 ∧ runSteps k u = .next v ∧ v.scan = none ∧
      (r.status = .ok → ∃ p, exec .poll s = .next p ∧
        exec (.submit payload) p = .next { v with response := some r } ∧ v.response = p.response) ∧
      (r.status ≠ .ok → ∃ p, exec (.submit payload) s = .next p ∧ p.response = some r ∧ exec .poll p = .next v)

/-! ## LAST_FRAME -/

/-- R200: LAST_FRAME returns OK with the current value of LastFrame and writes no state of the block. It is refused while a
POLL is in progress (R250(d)). -/
def Obligations.LastFrameReadsLatest : Prop :=
  ∀ s, (s.scan = none → exec .lastFrame s =
      .next { s with response := some { agent := .consumer, status := .ok, frame := s.lastFrame } }) ∧
    (s.scan ≠ none → exec .lastFrame s = .refused .overlappingOperation ∧
      exec .poll s = .refused .overlappingOperation)

/-- R202: a LAST_FRAME after a POLL that delivered an event returns the frame of that event, whole. -/
def Obligations.LastFrameReturnsEvent : Prop :=
  ∀ s t f, exec .poll s = .next t → t.response.map Response.frame = some (some f) →
    exec .lastFrame t = .next t ∧ t.lastFrame = some f

/-- R21, R129, R201: LastFrame is written only by a POLL, or a POLL's row, that takes a candidate which passes the checksum: the
17 bytes behind the first sync marker of the buffer, for the row those at the scan index in AwaitingBody, which the scan
invariant puts behind the sync marker at `rel`. The new value is the frame unpacked from them and meets the frame invariant. -/
def Obligations.OnlyAcceptedCandidateWritesLastFrame : Prop :=
  ∀ i s t, exec i s = .next t → t.lastFrame ≠ s.lastFrame →
    ∃ body, body.length = 17 ∧ checksumOk body = true ∧ t.lastFrame = some (unpack body) ∧ frameOk (unpack body) = true ∧
      ((i = .poll ∧ ∃ k, FirstSync s.q k ∧ body = bodyAfter s.q k) ∨
        (i = .fsmBodyComplete ∧ s.decoderState = DecoderState.awaitingBody.bits ∧ ∃ sc, s.scan = some sc ∧
          body = candidate sc ∧
          (ScanAt .awaitingBody sc → SyncAt sc.view sc.rel ∧ body = bodyAfter sc.view sc.rel)))

/-! ## The rows of the sync-search machine -/

/-- R123: in SeekFirstSync, 0xAA moves the machine to SeekSecondSync; it is consumed and not released, `rel` being `i` before
the step. -/
def Obligations.FirstSyncByteRow : Prop :=
  ∀ s sc, s.scan = some sc → sc.done = false → s.decoderState = DecoderState.seekFirstSync.bits →
    ScanAt .seekFirstSync sc → sc.view[sc.i]? = some 0xAA#8 →
    exec .fsmSyncInSeekFirst s = .next { s with
      decoderState := DecoderState.seekSecondSync.bits
      scan := some { sc with i := sc.i + 1, rel := sc.i } }

/-- R124: in SeekFirstSync, another byte is garbage: the state stays, the byte is consumed and marked for release. -/
def Obligations.GarbageByteRow : Prop :=
  ∀ s sc b, s.scan = some sc → sc.done = false → s.decoderState = DecoderState.seekFirstSync.bits →
    sc.view[sc.i]? = some b → b ≠ 0xAA#8 →
    exec (.fsmOtherInSeekFirst b) s = .next { s with scan := some { sc with i := sc.i + 1, rel := sc.i + 1 } }

/-- R125: in SeekSecondSync, 0xAA completes the sync marker and moves the machine to AwaitingBody; `rel` is unchanged, so it
stays at the first of the two sync bytes. -/
def Obligations.SecondSyncByteRow : Prop :=
  ∀ s sc, s.scan = some sc → sc.done = false → s.decoderState = DecoderState.seekSecondSync.bits →
    ScanAt .seekSecondSync sc → sc.view[sc.i]? = some 0xAA#8 →
    exec .fsmSyncInSeekSecond s = .next { s with
      decoderState := DecoderState.awaitingBody.bits
      scan := some { sc with i := sc.i + 1 } } ∧ SyncAt sc.view sc.rel ∧ sc.rel + 1 = sc.i

/-- R126: in SeekSecondSync, another byte ends the attempt: back to SeekFirstSync, both bytes marked for release. -/
def Obligations.FailedSecondSyncRow : Prop :=
  ∀ s sc b, s.scan = some sc → sc.done = false → s.decoderState = DecoderState.seekSecondSync.bits →
    sc.view[sc.i]? = some b → b ≠ 0xAA#8 →
    exec (.fsmOtherInSeekSecond b) s = .next { s with
      decoderState := DecoderState.seekFirstSync.bits
      scan := some { sc with i := sc.i + 1, rel := sc.i + 1 } }

/-- R127: in AwaitingBody with fewer than 17 bytes left the scan ends and nothing is consumed; `rel` keeps its value, the index
of the first sync byte. -/
def Obligations.IncompleteBodyRow : Prop :=
  ∀ s sc, s.scan = some sc → sc.done = false → s.decoderState = DecoderState.awaitingBody.bits →
    ScanAt .awaitingBody sc → sc.view.length - sc.i < 17 →
    exec .fsmBodyIncomplete s = .next { s with scan := some { sc with done := true } } ∧ sc.rel = sc.i - 2

/-- R128, R129: in AwaitingBody with at least 17 bytes left they are the candidate, whatever their values; `rel` goes through its
end and the scan ends; a match of the checksum writes LastFrame and the event, a mismatch neither. That `i` advances by
17 as well is R24's clause (log entry 7). -/
def Obligations.CompleteBodyRow : Prop :=
  ∀ s sc, s.scan = some sc → sc.done = false → s.decoderState = DecoderState.awaitingBody.bits →
    17 ≤ sc.view.length - sc.i → ∃ body, body = (sc.view.drop sc.i).take 17 ∧ body.length = 17 ∧
      (checksumOk body = true → exec .fsmBodyComplete s = .next { s with
        lastFrame := some (unpack body)
        scan := some { sc with i := sc.i + 17, rel := sc.i + 17, ev := some (unpack body), done := true } }) ∧
      (checksumOk body = false → exec .fsmBodyComplete s = .next { s with
        scan := some { sc with i := sc.i + 17, rel := sc.i + 17, done := true } })

/-- R24, R123 to R128: the frame of the six rows. The buffer, the view, `QCAP`, the latest response and the inputs are
unchanged, and LastFrame and the event are too, but for FSM_BODY_COMPLETE. -/
def Obligations.RowFrame : Prop :=
  ∀ i s t, isRow i = true → exec i s = .next t →
    t.q = s.q ∧ t.qcap = s.qcap ∧ t.response = s.response ∧ t.inputs = s.inputs ∧
    t.scan.map Scan.view = s.scan.map Scan.view ∧
    (i ≠ .fsmBodyComplete → t.lastFrame = s.lastFrame ∧ t.scan.map Scan.ev = s.scan.map Scan.ev)

/-- R122, log entry 11 (the model's choice): a row runs exactly where the scan state and the bytes left decode to it; elsewhere
it is refused. -/
def Obligations.RowRunsWhereDecoded : Prop :=
  ∀ i s, isRow i = true →
    ((∃ t, exec i s = .next t) ↔ ∃ sc d, s.scan = some sc ∧ sc.done = false ∧
      DecoderState.ofBits s.decoderState = some d ∧ decodeScan d (scanLeft sc) = some i) ∧
    ((∃ t, exec i s = .next t) ∨ exec i s = .refused .transitionNotEnabled)

/-- R133: at the top of every pass of R122's loop the scan invariant holds. -/
def Obligations.ScanInvariantAtEveryPass : Prop :=
  ∀ s n sc, (scanLoop n (pollBegin s)).scan = some sc → sc.done = false →
    ∃ d, DecoderState.ofBits (scanLoop n (pollBegin s)).decoderState = some d ∧ ScanAt d sc ∧
      sc.i ≤ sc.view.length ∧ sc.view = s.q

/-! ## Checksum and unpacker -/

/-- R160, R161: the checksum is the sum of the first 16 bytes as unsigned values, mod 256; 16 bits hold it, and an 8-bit register
that wraps on every addition gives the same value. -/
def Obligations.ChecksumIsSumMod256 : Prop :=
  ∀ body : List Byte, body.length = 17 →
    (bodySum body).toNat = ((body.take 16).map BitVec.toNat).sum ∧ (bodySum body).toNat ≤ 4080 ∧
    (body.take 16).foldl (fun s b => s + b) 0#8 = (bodySum body).setWidth 8 ∧
    (checksumOk body = true ↔ ((body.take 16).map BitVec.toNat).sum % 256 = (bodyByte body 16).toNat)

/-- R163: a change of exactly one of the 17 bytes of an accepted body is caught. -/
def Obligations.SingleByteChangeIsCaught : Prop :=
  ∀ (body : List Byte) k b, body.length = 17 → k < 17 → bodyByte body k ≠ b → checksumOk body = true →
    checksumOk (body.set k b) = false

/-- R163: a reordering of the 16 summed bytes is not caught, nor are two changes of `+d` and `-d` to two of them. -/
def Obligations.ReorderingIsNotCaught : Prop :=
  (∀ (xs ys : List Byte) c, xs.length = 16 → xs.Perm ys → checksumOk (ys ++ [c]) = checksumOk (xs ++ [c])) ∧
  ∀ (body : List Byte) j k (d : Byte), body.length = 17 → j < 16 → k < 16 → j ≠ k →
    checksumOk ((body.set j (bodyByte body j + d)).set k (bodyByte body k - d)) = checksumOk body

/-- R186: `unpack` and `encode` are inverse to each other. -/
def Obligations.UnpackEncodeRoundTrip : Prop :=
  (∀ f, (encodeFrame f).length = 17 ∧ unpack (encodeFrame f) = f) ∧
  ∀ body : List Byte, body.length = 17 → encodeFrame (unpack body) = body

/-- R180, R181, R182: which body bytes each field is unpacked from; an i16 field is read little-endian from two consecutive
body bytes, as two's complement, which is the sign-extended word. -/
def Obligations.FieldsAreLittleEndianTwosComplement : Prop :=
  ∀ body : List Byte,
    ((unpack body).index = bodyByte body 0 ∧ (unpack body).yaw = bodyWord body 1 ∧ (unpack body).pitch = bodyWord body 3 ∧
      (unpack body).roll = bodyWord body 5 ∧ (unpack body).xAcc = bodyWord body 7 ∧ (unpack body).yAcc = bodyWord body 9 ∧
      (unpack body).zAcc = bodyWord body 11 ∧ (unpack body).motionIntent = bodyByte body 13 ∧
      (unpack body).motionRequest = bodyByte body 14 ∧ (unpack body).rsvd = bodyByte body 15 ∧
      (unpack body).csum = bodyByte body 16) ∧
    ∀ k, (bodyWord body k).toNat = (bodyByte body k).toNat + 256 * (bodyByte body (k + 1)).toNat ∧
      ((bodyWord body k).toNat ≤ 0x7FFF → int16 (bodyWord body k) = (bodyWord body k).toNat) ∧
      (0x7FFF < (bodyWord body k).toNat → int16 (bodyWord body k) = (bodyWord body k).toNat - 0x10000) ∧
      int16 (bodyWord body k) = (bodyWord body k).toInt

/-! ## Encodings -/

/-- R70, R71, R73: decoding the encoding of a well-formed command gives it back with every operand, and leaves the bytes behind
it. -/
def Obligations.DecodeOfEncodedCommand : Prop :=
  ∀ i rest, WellFormed i = true → (cmdWord i).isSome = true → decodeCommand (encode i ++ rest) = .ok (i, rest)

/-- R70 to R73: a list of bytes that decodes is the encoding of a well-formed command and the bytes left over: no bit of a
command is dropped, and no two commands share a spelling. -/
def Obligations.EncodeOfDecodedCommand : Prop :=
  ∀ bytes i rest, decodeCommand bytes = .ok (i, rest) →
    WellFormed i = true ∧ (cmdWord i).isSome = true ∧ bytes = encode i ++ rest

/-- R67, R127, R128: decoding the encoding of a well-formed row, in the row's own scan state, gives it back; the two AwaitingBody
rows are told apart by the number of bytes left. -/
def Obligations.DecodeOfEncodedRow : Prop :=
  ∀ i d left, WellFormed i = true → rowState i = some d →
    ((rowByte i).isSome = true → decodeScan d (encode i ++ left) = some i) ∧
    (i = .fsmBodyComplete → (decodeScan d left = some i ↔ 17 ≤ left.length)) ∧
    (i = .fsmBodyIncomplete → (decodeScan d left = some i ↔ left.length < 17))

/-- spec/opcode_table.json, R71: a command word matches the `match` and `mask` of the row it decodes to. -/
def Obligations.DecodedWordMatchesTableRow : Prop :=
  ∀ w rest i left, decodeWord w rest = .ok (i, left) →
    ∃ pattern mask, cmdPattern i = some (pattern, mask) ∧ w &&& mask = pattern

/-- R71, R72: exactly the reserved words spell no operation, and every other word with its payload decodes to one of the three.
That a reserved word decodes to an instruction of its own, refused by name with the word, is the model's choice (log entry
10). -/
def Obligations.ReservedWordsSpellNoOperation : Prop :=
  ∀ w rest, (reservedWord w = true → ∃ i, decodeWord w rest = .ok (i, rest) ∧
      ∀ s, exec i s = .refused (.reservedCommandWord w)) ∧
    (reservedWord w = false → (cmdLen w).toNat ≤ rest.length →
      ∃ i left, decodeWord w rest = .ok (i, left) ∧ isOperation i = true)

/-- R72, R250(a): the five reserved instructions are refused in every state, by the name of their word. -/
def Obligations.ReservedInstructionsAreRefused : Prop :=
  ∀ s (a : BitVec 12) (b : BitVec 14) (c : BitVec 15),
    exec (.reservedOp0 a) s = .refused (.reservedCommandWord (0#4 ++ a)) ∧
    exec (.reservedOp4to7 b) s = .refused (.reservedCommandWord (1#2 ++ b)) ∧
    exec (.reservedOp8toF c) s = .refused (.reservedCommandWord (1#1 ++ c)) ∧
    exec (.reservedPollLen a) s = .refused (.reservedCommandWord (2#4 ++ a)) ∧
    exec (.reservedLastFrameLen a) s = .refused (.reservedCommandWord (3#4 ++ a))

/-- R71 to R73, R123: words written out from the encodings decode to what they stand for. -/
def Obligations.WrittenWordsDecode : Prop :=
  decodeCommand [0x10#8, 0x02#8, 0x55#8, 0xAA#8] = .ok (.submit [0x55#8, 0xAA#8], []) ∧
  decodeCommand [0x20#8, 0x00#8] = .ok (.poll, []) ∧
  decodeCommand [0x30#8, 0x00#8, 0x20#8] = .ok (.lastFrame, [0x20#8]) ∧
  decodeCommand [0x20#8, 0x01#8] = .ok (.reservedPollLen 1#12, []) ∧
  decodeScan .seekFirstSync [0xAA#8] = some .fsmSyncInSeekFirst ∧
  decodeScan .seekSecondSync [0xBB#8] = some (.fsmOtherInSeekSecond 0xBB#8)

/-- R74, R240: the four status codes, the bits and the length of a response; which operations return a frame. -/
def Obligations.ResponseEncoding : Prop :=
  (∀ r, (r.status = .ok → (respByte r).extractLsb' 0 2 = 0#2) ∧
    (r.status = .capacityExceeded → (respByte r).extractLsb' 0 2 = 1#2) ∧
    (r.status = .queueFull → (respByte r).extractLsb' 0 2 = 2#2) ∧
    (r.status = .queueEmpty → (respByte r).extractLsb' 0 2 = 3#2) ∧
    ((respByte r).extractLsb' 2 1 = 1#1 ↔ r.frame.isSome = true) ∧ (respByte r).extractLsb' 3 5 = 0#5 ∧
    (r.frame = none → responseBytes r = [respByte r] ∧ (responseBytes r).length = 1) ∧
    ∀ f, r.frame = some f → responseBytes r = respByte r :: encodeFrame f ∧ (responseBytes r).length = 18) ∧
  ∀ i s t, isOperation i = true → exec i s = .next t → ∃ r, t.response = some r ∧
    ((∃ b, i = .submit b) → r.frame = none) ∧ (i = .lastFrame → r.status = .ok ∧ r.frame = s.lastFrame)

/-! ## The companion converter -/

/-- R221, R222, R223: the exact values of TO_PRETTY, their ranges, and the fields copied unchanged. -/
def Obligations.PrettyValuesAndRanges : Prop :=
  ∀ f, (toPretty f).yaw = (int16 f.yaw : Rat) / 100 ∧ (toPretty f).pitch = (int16 f.pitch : Rat) / 100 ∧
    (toPretty f).roll = (int16 f.roll : Rat) / 100 ∧
    (toPretty f).xAcc = (int16 f.xAcc : Rat) * 980665 / 100000000 ∧
    (toPretty f).yAcc = (int16 f.yAcc : Rat) * 980665 / 100000000 ∧
    (toPretty f).zAcc = (int16 f.zAcc : Rat) * 980665 / 100000000 ∧
    (toPretty f).index = f.index ∧ (toPretty f).motionIntent = f.motionIntent ∧
    (toPretty f).motionRequest = f.motionRequest ∧ (toPretty f).rsvd = f.rsvd ∧
    ∀ w, -32768 / 100 ≤ degrees w ∧ degrees w ≤ 32767 / 100 ∧
      -3213443072 / 10000000 ≤ metresPerSecondSquared w ∧ metresPerSecondSquared w ≤ 32133450055 / 100000000
end

