-- ==== Sys2Proof/Laws/Checksum.lean ====
section
/-!
SUPPORT. Sums of bytes (42_checksum.md) and single bytes of a body.
-/
namespace Sys2Proof.Machine

/-- A 16-bit accumulator that does not overflow holds the sum. -/
theorem foldl_add16_toNat (l : List Byte) : ∀ s : BitVec 16, s.toNat + 255 * l.length < 65536 →
    (l.foldl (fun s b => s + b.setWidth 16) s).toNat = s.toNat + (l.map BitVec.toNat).sum := by
  induction l with
  | nil => intro s _; simp
  | cons b l ih =>
    intro s h
    have hb := b.isLt
    simp only [List.length_cons] at h
    have e : (s + b.setWidth 16).toNat = s.toNat + b.toNat := by
      simp [BitVec.toNat_add]; omega
    simp only [List.foldl_cons, List.map_cons, List.sum_cons]
    rw [ih _ (by rw [e]; omega), e]; omega

/-- An 8-bit register that wraps on every addition holds the sum mod 256 (R161). -/
theorem foldl_add8_toNat (l : List Byte) : ∀ s : BitVec 8,
    (l.foldl (fun s b => s + b) s).toNat = (s.toNat + (l.map BitVec.toNat).sum) % 256 := by
  induction l with
  | nil => intro s; have := s.isLt; simp; omega
  | cons b l ih =>
    intro s
    simp only [List.foldl_cons, List.map_cons, List.sum_cons]
    rw [ih, BitVec.toNat_add]; omega

/-- A sum of bytes is at most 255 for each. -/
theorem sum_toNat_le (l : List Byte) : (l.map BitVec.toNat).sum ≤ 255 * l.length := by
  induction l with
  | nil => simp
  | cons b l ih => have := b.isLt; simp; omega

/-- What a change of one byte does to the sum. -/
theorem sum_toNat_set (l : List Byte) : ∀ (k : Nat) (b : Byte), k < l.length →
    ((l.set k b).map BitVec.toNat).sum + (l.getD k 0#8).toNat = (l.map BitVec.toNat).sum + b.toNat := by
  induction l with
  | nil => intro k b h; simp at h
  | cons a l ih =>
    intro k b h
    cases k with
    | zero => simp; omega
    | succ k =>
      have := ih k b (by simpa using h)
      simp at this ⊢; omega

/-- A body byte after one byte is changed. -/
theorem bodyByte_set {body : List Byte} {k : Nat} (h : k < body.length) (b : Byte) (j : Nat) :
    bodyByte (body.set k b) j = if j = k then b else bodyByte body j := by
  unfold bodyByte
  rw [List.getD_eq_getElem?_getD, List.getD_eq_getElem?_getD, List.getElem?_set]
  split
  · subst_vars; simp
  · rw [if_neg (Ne.symm ‹_›)]

/-- The summed bytes are the body's. -/
theorem getD_take_csumLen (body : List Byte) {k : Nat} (h : k < 16) : (body.take 16).getD k 0#8 = bodyByte body k := by
  simp [bodyByte, List.getD_eq_getElem?_getD, h]

end Sys2Proof.Machine
end

