-- ==== Sys2Proof/Laws/Decode.lean ====
section
/-!
SUPPORT. The fields of a command word (30_encoding.md R70).
-/
namespace Sys2Proof

/-- The high part of a concatenation. -/
theorem extract_high_append {n m : Nat} (a : BitVec n) (b : BitVec m) : (a ++ b).extractLsb' m n = a := by
  apply BitVec.eq_of_toNat_eq
  have h1 := a.isLt
  have h2 := b.isLt
  rw [BitVec.extractLsb'_toNat, BitVec.toNat_append, ← Nat.shiftLeft_add_eq_or_of_lt h2, Nat.shiftLeft_eq,
    Nat.shiftRight_eq_div_pow, Nat.add_comm, Nat.add_mul_div_right _ _ (by positivity), Nat.div_eq_of_lt h2,
    Nat.zero_add, Nat.mod_eq_of_lt h1]

/-- The low part of a concatenation. -/
theorem extract_low_append {n m : Nat} (a : BitVec n) (b : BitVec m) : (a ++ b).extractLsb' 0 m = b := by
  apply BitVec.eq_of_toNat_eq
  have h2 := b.isLt
  rw [BitVec.extractLsb'_toNat, BitVec.toNat_append, ← Nat.shiftLeft_add_eq_or_of_lt h2, Nat.shiftLeft_eq,
    Nat.shiftRight_zero, Nat.add_comm, Nat.add_mul_mod_self_right, Nat.mod_eq_of_lt h2]

@[simp] theorem cmdOp_append (op : BitVec 4) (len : BitVec 12) : cmdOp (op ++ len) = op := extract_high_append op len

@[simp] theorem cmdLen_append (op : BitVec 4) (len : BitVec 12) : cmdLen (op ++ len) = len := extract_low_append op len

/-- `OP` as a number. -/
theorem cmdOp_toNat (w : Word16) : (cmdOp w).toNat = w.toNat / 4096 := by
  have := w.isLt
  simp only [cmdOp, BitVec.extractLsb'_toNat, Nat.shiftRight_eq_div_pow]
  omega

/-- `LEN` as a number. -/
theorem cmdLen_toNat (w : Word16) : (cmdLen w).toNat = w.toNat % 4096 := by
  simp [cmdLen, BitVec.extractLsb'_toNat]

/-- A word is its `OP` and its `LEN`. -/
theorem cmdOp_append_cmdLen (w : Word16) : cmdOp w ++ cmdLen w = w := by
  apply BitVec.eq_of_toNat_eq
  have := w.isLt
  rw [BitVec.toNat_append, ← Nat.shiftLeft_add_eq_or_of_lt (cmdLen w).isLt, Nat.shiftLeft_eq, cmdOp_toNat, cmdLen_toNat]
  omega

/-- A concatenation under a mask, part by part. -/
theorem append_and_append {n m : Nat} (a c : BitVec n) (b d : BitVec m) :
    (a ++ b) &&& (c ++ d) = (a &&& c) ++ (b &&& d) := by
  ext i hi
  simp only [BitVec.getElem_and, BitVec.getElem_append]
  split <;> rfl

/-- A command decodes from its encoding as from its word and payload. -/
theorem decodeCommand_encode {i : Instr} {w : Word16} (h : cmdWord i = some w) (rest : List Byte) :
    decodeCommand (encode i ++ rest) = decodeWord w (cmdPayload i ++ rest) := by
  simp [encode, h, wordBytes, decodeCommand]

end Sys2Proof
end

