-- ==== Sys2Proof/Laws/State.lean ====
section
/-!
SUPPORT. One lemma for each field of State under each named update, so that no proof unfolds a record update.
-/
namespace Sys2Proof.Machine

@[simp] theorem queueWrite_q (s : State) (b : List Byte) : (queueWrite s b).q = s.q ++ b := rfl
@[simp] theorem queueWrite_lastFrame (s : State) (b : List Byte) : (queueWrite s b).lastFrame = s.lastFrame := rfl
@[simp] theorem queueWrite_decoderState (s : State) (b : List Byte) : (queueWrite s b).decoderState = s.decoderState := rfl
@[simp] theorem queueWrite_scan (s : State) (b : List Byte) : (queueWrite s b).scan = s.scan := rfl
@[simp] theorem queueWrite_qcap (s : State) (b : List Byte) : (queueWrite s b).qcap = s.qcap := rfl
@[simp] theorem queueWrite_response (s : State) (b : List Byte) : (queueWrite s b).response = s.response := rfl
@[simp] theorem queueWrite_inputs (s : State) (b : List Byte) : (queueWrite s b).inputs = s.inputs := rfl

@[simp] theorem respond_q (s : State) (a : Agent) (st : Status) (f : Option RawFrame) : (respond s a st f).q = s.q := rfl
@[simp] theorem respond_lastFrame (s : State) (a : Agent) (st : Status) (f : Option RawFrame) : (respond s a st f).lastFrame = s.lastFrame := rfl
@[simp] theorem respond_decoderState (s : State) (a : Agent) (st : Status) (f : Option RawFrame) : (respond s a st f).decoderState = s.decoderState := rfl
@[simp] theorem respond_scan (s : State) (a : Agent) (st : Status) (f : Option RawFrame) : (respond s a st f).scan = s.scan := rfl
@[simp] theorem respond_qcap (s : State) (a : Agent) (st : Status) (f : Option RawFrame) : (respond s a st f).qcap = s.qcap := rfl
@[simp] theorem respond_response (s : State) (a : Agent) (st : Status) (f : Option RawFrame) : (respond s a st f).response = some { agent := a, status := st, frame := f } := rfl
@[simp] theorem respond_inputs (s : State) (a : Agent) (st : Status) (f : Option RawFrame) : (respond s a st f).inputs = s.inputs := rfl

@[simp] theorem pollBegin_q (s : State) : (pollBegin s).q = s.q := rfl
@[simp] theorem pollBegin_lastFrame (s : State) : (pollBegin s).lastFrame = s.lastFrame := rfl
@[simp] theorem pollBegin_decoderState (s : State) : (pollBegin s).decoderState = DecoderState.seekFirstSync.bits := rfl
@[simp] theorem pollBegin_scan (s : State) : (pollBegin s).scan = some { view := s.q, i := 0, rel := 0, ev := none, done := false } := rfl
@[simp] theorem pollBegin_qcap (s : State) : (pollBegin s).qcap = s.qcap := rfl
@[simp] theorem pollBegin_response (s : State) : (pollBegin s).response = s.response := rfl
@[simp] theorem pollBegin_inputs (s : State) : (pollBegin s).inputs = s.inputs := rfl

@[simp] theorem consumeByte_q (s : State) (sc : Scan) (d : DecoderState) (n : Nat) : (consumeByte s sc d n).q = s.q := rfl
@[simp] theorem consumeByte_lastFrame (s : State) (sc : Scan) (d : DecoderState) (n : Nat) : (consumeByte s sc d n).lastFrame = s.lastFrame := rfl
@[simp] theorem consumeByte_decoderState (s : State) (sc : Scan) (d : DecoderState) (n : Nat) : (consumeByte s sc d n).decoderState = d.bits := rfl
@[simp] theorem consumeByte_scan (s : State) (sc : Scan) (d : DecoderState) (n : Nat) : (consumeByte s sc d n).scan = some { sc with i := sc.i + 1, rel := n } := rfl
@[simp] theorem consumeByte_qcap (s : State) (sc : Scan) (d : DecoderState) (n : Nat) : (consumeByte s sc d n).qcap = s.qcap := rfl
@[simp] theorem consumeByte_response (s : State) (sc : Scan) (d : DecoderState) (n : Nat) : (consumeByte s sc d n).response = s.response := rfl
@[simp] theorem consumeByte_inputs (s : State) (sc : Scan) (d : DecoderState) (n : Nat) : (consumeByte s sc d n).inputs = s.inputs := rfl

@[simp] theorem leaveIncomplete_q (s : State) (sc : Scan) : (leaveIncomplete s sc).q = s.q := rfl
@[simp] theorem leaveIncomplete_lastFrame (s : State) (sc : Scan) : (leaveIncomplete s sc).lastFrame = s.lastFrame := rfl
@[simp] theorem leaveIncomplete_decoderState (s : State) (sc : Scan) : (leaveIncomplete s sc).decoderState = s.decoderState := rfl
@[simp] theorem leaveIncomplete_scan (s : State) (sc : Scan) : (leaveIncomplete s sc).scan = some { sc with done := true } := rfl
@[simp] theorem leaveIncomplete_qcap (s : State) (sc : Scan) : (leaveIncomplete s sc).qcap = s.qcap := rfl
@[simp] theorem leaveIncomplete_response (s : State) (sc : Scan) : (leaveIncomplete s sc).response = s.response := rfl
@[simp] theorem leaveIncomplete_inputs (s : State) (sc : Scan) : (leaveIncomplete s sc).inputs = s.inputs := rfl

@[simp] theorem constructed_q (n : Nat) : (State.constructed n).q = [] := rfl
@[simp] theorem constructed_lastFrame (n : Nat) : (State.constructed n).lastFrame = none := rfl
@[simp] theorem constructed_decoderState (n : Nat) : (State.constructed n).decoderState = 0#2 := rfl
@[simp] theorem constructed_scan (n : Nat) : (State.constructed n).scan = none := rfl
@[simp] theorem constructed_qcap (n : Nat) : (State.constructed n).qcap = n := rfl
@[simp] theorem constructed_response (n : Nat) : (State.constructed n).response = none := rfl
@[simp] theorem constructed_inputs (n : Nat) : (State.constructed n).inputs = [] := rfl

/-! The four byte transitions are `consumeByte` (R123 to R126). -/

@[simp] theorem matchFirstSync_eq (s : State) (sc : Scan) : matchFirstSync s sc = consumeByte s sc .seekSecondSync sc.rel := rfl
@[simp] theorem skipGarbage_eq (s : State) (sc : Scan) : skipGarbage s sc = consumeByte s sc .seekFirstSync (sc.i + 1) := rfl
@[simp] theorem matchSecondSync_eq (s : State) (sc : Scan) : matchSecondSync s sc = consumeByte s sc .awaitingBody sc.rel := rfl
@[simp] theorem failSecondSync_eq (s : State) (sc : Scan) : failSecondSync s sc = consumeByte s sc .seekFirstSync (sc.i + 1) := rfl

/-! Taking a candidate touches LastFrame and the scan only (R128, R129). -/

@[simp] theorem takeCandidate_q (s : State) (sc : Scan) : (takeCandidate s sc).q = s.q := by
  unfold takeCandidate; split <;> rfl
@[simp] theorem takeCandidate_decoderState (s : State) (sc : Scan) : (takeCandidate s sc).decoderState = s.decoderState := by
  unfold takeCandidate; split <;> rfl
@[simp] theorem takeCandidate_qcap (s : State) (sc : Scan) : (takeCandidate s sc).qcap = s.qcap := by
  unfold takeCandidate; split <;> rfl
@[simp] theorem takeCandidate_response (s : State) (sc : Scan) : (takeCandidate s sc).response = s.response := by
  unfold takeCandidate; split <;> rfl
@[simp] theorem takeCandidate_inputs (s : State) (sc : Scan) : (takeCandidate s sc).inputs = s.inputs := by
  unfold takeCandidate; split <;> rfl
theorem takeCandidate_lastFrame (s : State) (sc : Scan) : (takeCandidate s sc).lastFrame =
    if checksumOk (candidate sc) then some (unpack (candidate sc)) else s.lastFrame := by
  unfold takeCandidate; split <;> rfl
theorem takeCandidate_scan (s : State) (sc : Scan) : (takeCandidate s sc).scan =
    some { candidateTaken sc with ev := if checksumOk (candidate sc) then some (unpack (candidate sc)) else sc.ev } := by
  unfold takeCandidate; split <;> rfl

end Sys2Proof.Machine
end

