-- ==== Sys2Proof/Laws/Ops.lean ====
section
/-!
SUPPORT. One lemma for each shared operation that says everything it can do, to be cited in place of its definition.
-/
namespace Sys2Proof.Machine

/-! ## The scan-state register (R75) -/

@[simp] theorem ofBits_bits (d : DecoderState) : DecoderState.ofBits d.bits = some d := by cases d <;> rfl

/-- The code of a scan state is the only one that stands for it. -/
theorem ofBits_eq_some_iff (b : BitVec 2) (d : DecoderState) : DecoderState.ofBits b = some d ↔ b = d.bits := by
  constructor
  · intro h
    unfold DecoderState.ofBits at h
    split at h
    · cases h; assumption
    · split at h
      · cases h; assumption
      · split at h
        · cases h; assumption
        · cases h
  · rintro rfl; exact ofBits_bits d

/-- The unused code is `11`, and no other (R75). -/
theorem ofBits_eq_none_iff (b : BitVec 2) : DecoderState.ofBits b = none ↔ b = 3#2 := by
  revert b; decide

/-! ## Buffer, responses, construction -/

/-- `QueueRelease` drops the prefix, or faults beyond the view (R9). -/
theorem queueRelease_of_le (s : State) {n viewLen : Nat} (h : n ≤ viewLen) :
    queueRelease s n viewLen = .next { s with q := s.q.drop n } := if_pos h

/-- A release that answers a next state was within the view. -/
theorem queueRelease_next {s t : State} {n viewLen : Nat} (h : queueRelease s n viewLen = .next t) :
    n ≤ viewLen ∧ t = { s with q := s.q.drop n } := by
  unfold queueRelease at h
  split at h
  · cases h; exact ⟨‹_›, rfl⟩
  · cases h

/-- Construction answers the reset values or refuses below one frame (R270, R275). -/
theorem construct_cases (n : Nat) :
    (19 ≤ n ∧ construct n = .next (State.constructed n)) ∨ (n < 19 ∧ construct n = .refused .capacityBelowFrame) := by
  by_cases h : n < Config.minQcap
  · exact .inr ⟨h, if_pos h⟩
  · exact .inl ⟨Nat.le_of_not_lt h, if_neg h⟩

/-- A supported state has room for a frame and a scan state that stands for something (R250(b), (c)). -/
theorem unsupported_none_iff (s : State) :
    unsupported s = none ↔ 19 ≤ s.qcap ∧ ∃ d, DecoderState.ofBits s.decoderState = some d := by
  unfold unsupported Config.minQcap
  split
  · constructor
    · intro h; cases h
    · rintro ⟨h, -⟩; omega
  · split
    · rename_i h
      simp [h]
    · rename_i hq h
      simp only [true_iff]
      exact ⟨Nat.le_of_not_lt hq, Option.ne_none_iff_exists'.mp h⟩

/-! ## SUBMIT (R100) -/

/-- Everything SUBMIT can do. -/
theorem execSubmit_cases (b : List Byte) (s : State) :
    (s.qcap < b.length ∧ execSubmit b s = .next (respond s .producer .capacityExceeded none)) ∨
    (b.length ≤ s.qcap ∧ s.qcap - s.q.length < b.length ∧
      execSubmit b s = .next (respond s .producer .queueFull none)) ∨
    (b.length ≤ s.qcap ∧ b.length ≤ s.qcap - s.q.length ∧
      execSubmit b s = .next (respond (queueWrite s b) .producer .ok none)) := by
  by_cases h : s.qcap < b.length
  · exact .inl ⟨h, if_pos h⟩
  · by_cases h' : freeSpace s < b.length
    · exact .inr (.inl ⟨Nat.le_of_not_lt h, h', by unfold execSubmit; rw [if_neg h, if_pos h']⟩)
    · exact .inr (.inr ⟨Nat.le_of_not_lt h, Nat.le_of_not_lt h', by unfold execSubmit; rw [if_neg h, if_neg h']⟩)

/-! ## A POLL in progress -/

/-- Where `scanIn` finds the scan. -/
theorem scanIn_eq_some_iff (s : State) (d : DecoderState) (sc : Scan) :
    scanIn s d = some sc ↔ s.scan = some sc ∧ sc.done = false ∧ s.decoderState = d.bits := by
  unfold scanIn
  cases hs : s.scan with
  | none => simp
  | some sc' =>
    simp only [Option.some.injEq]
    constructor
    · intro h
      split at h
      · cases h; exact ⟨rfl, ‹_›⟩
      · cases h
    · rintro ⟨rfl, h⟩; exact if_pos h

/-- The byte a pass looks at is the first of the bytes not yet scanned. -/
theorem scanByte_eq_head? (sc : Scan) : scanByte sc = (scanLeft sc).head? := by
  simp [scanByte, scanLeft]

/-- The bytes left after one is consumed. -/
theorem scanLeft_succ (sc : Scan) (n : Nat) : scanLeft { sc with i := sc.i + 1, rel := n } = (scanLeft sc).tail := by
  simp [scanLeft]

/-- The bytes left are those from the scan index on. -/
@[simp] theorem scanLeft_length (sc : Scan) : (scanLeft sc).length = sc.view.length - sc.i := by simp [scanLeft]

/-! One pass of the loop, by scan state and by the bytes left (R122). -/

/-- R123 and R124: the pass in SeekFirstSync. -/
theorem scanPass_seekFirst {s : State} {sc : Scan} (hd : s.decoderState = DecoderState.seekFirstSync.bits)
    (hdone : sc.done = false) {b : Byte} {rest : List Byte} (hl : scanLeft sc = b :: rest) :
    scanPass s sc = some (if b = Config.syncByte then matchFirstSync s sc else skipGarbage s sc) := by
  simp only [scanPass, hdone, hd, ofBits_bits, scanByte_eq_head?, hl, List.head?_cons]
  by_cases h : b = Config.syncByte <;> simp [h]

/-- R125 and R126: the pass in SeekSecondSync. -/
theorem scanPass_seekSecond {s : State} {sc : Scan} (hd : s.decoderState = DecoderState.seekSecondSync.bits)
    (hdone : sc.done = false) {b : Byte} {rest : List Byte} (hl : scanLeft sc = b :: rest) :
    scanPass s sc = some (if b = Config.syncByte then matchSecondSync s sc else failSecondSync s sc) := by
  simp only [scanPass, hdone, hd, ofBits_bits, scanByte_eq_head?, hl, List.head?_cons]
  by_cases h : b = Config.syncByte <;> simp [h]

/-- R127 and R128: the pass in AwaitingBody. -/
theorem scanPass_awaiting {s : State} {sc : Scan} (hd : s.decoderState = DecoderState.awaitingBody.bits)
    (hdone : sc.done = false) :
    scanPass s sc = some (if 17 ≤ sc.view.length - sc.i then takeCandidate s sc else leaveIncomplete s sc) := by
  simp only [scanPass, hdone, hd, ofBits_bits, scanLeft_length, Config.bodyLen]
  by_cases h : 17 ≤ sc.view.length - sc.i <;> simp [h]

/-- The view is exhausted in a seek state: the loop exits. -/
theorem scanPass_exhausted {s : State} {sc : Scan} (hd : s.decoderState ≠ DecoderState.awaitingBody.bits)
    (hl : scanLeft sc = []) : scanPass s sc = none := by
  unfold scanPass
  split
  · rfl
  · split
    · rfl
    · rename_i h; exact absurd ((ofBits_eq_some_iff _ _).mp h) hd
    · simp [scanByte_eq_head?, hl]
    · simp [scanByte_eq_head?, hl]

/-- A scan that has ended takes no pass. -/
theorem scanPass_done (s : State) (sc : Scan) (h : sc.done = true) : scanPass s sc = none := by simp [scanPass, h]

/-- The end of a POLL, where the release is within the view (R131, R132, R138). -/
theorem pollEnd_of_le (s : State) (sc : Scan) (h : sc.rel ≤ sc.view.length) :
    pollEnd s sc = .next { s with
      q := s.q.drop sc.rel
      decoderState := DecoderState.seekFirstSync.bits
      scan := none
      response := some { agent := .consumer, status := .ok, frame := sc.ev } } := by
  unfold pollEnd; rw [queueRelease_of_le s h]; rfl

/-- A POLL's end that answers a next state released a prefix within the view. -/
theorem pollEnd_next {s t : State} {sc : Scan} (h : pollEnd s sc = .next t) :
    sc.rel ≤ sc.view.length ∧ t = { s with
      q := s.q.drop sc.rel
      decoderState := DecoderState.seekFirstSync.bits
      scan := none
      response := some { agent := .consumer, status := .ok, frame := sc.ev } } := by
  by_cases hle : sc.rel ≤ sc.view.length
  · rw [pollEnd_of_le s sc hle] at h; cases h; exact ⟨hle, rfl⟩
  · unfold pollEnd queueRelease at h; rw [if_neg hle] at h; cases h

end Sys2Proof.Machine
end

