-- ==== Sys2Proof/Laws/PerInstr.lean ====
section
/-!
SUPPORT. Facts about every instruction as syntax, one lemma a constructor.
-/
namespace Sys2Proof.Laws.EncodedLength

/-- The encoding has the length R73 gives it, and a well-formed instruction is at most the longest command. -/
def Statement (i : Instr) : Prop :=
  (encode i).length = encodedLength i ∧ (WellFormed i = true → encodedLength i ≤ 2 + Config.maxLen)

theorem submit (payload : List Byte) : Statement (.submit payload) :=
  ⟨by simp [encode, cmdWord, cmdPayload, wordBytes, encodedLength]; omega,
    fun h => Nat.add_le_add_left (of_decide_eq_true h) 2⟩

theorem poll : Statement .poll :=
  ⟨rfl, fun _ => by simp [encodedLength, Config.maxLen]⟩

theorem lastFrame : Statement .lastFrame :=
  ⟨rfl, fun _ => by simp [encodedLength, Config.maxLen]⟩

theorem reservedOp0 (low : BitVec 12) : Statement (.reservedOp0 low) :=
  ⟨rfl, fun _ => by simp [encodedLength, Config.maxLen]⟩

theorem reservedOp4to7 (low : BitVec 14) : Statement (.reservedOp4to7 low) :=
  ⟨rfl, fun _ => by simp [encodedLength, Config.maxLen]⟩

theorem reservedOp8toF (low : BitVec 15) : Statement (.reservedOp8toF low) :=
  ⟨rfl, fun _ => by simp [encodedLength, Config.maxLen]⟩

theorem reservedPollLen (len : BitVec 12) : Statement (.reservedPollLen len) :=
  ⟨rfl, fun _ => by simp [encodedLength, Config.maxLen]⟩

theorem reservedLastFrameLen (len : BitVec 12) : Statement (.reservedLastFrameLen len) :=
  ⟨rfl, fun _ => by simp [encodedLength, Config.maxLen]⟩

theorem fsmSyncInSeekFirst : Statement .fsmSyncInSeekFirst :=
  ⟨rfl, fun _ => by simp [encodedLength, Config.maxLen]⟩

theorem fsmOtherInSeekFirst (b : Byte) : Statement (.fsmOtherInSeekFirst b) :=
  ⟨rfl, fun _ => by simp [encodedLength, Config.maxLen]⟩

theorem fsmSyncInSeekSecond : Statement .fsmSyncInSeekSecond :=
  ⟨rfl, fun _ => by simp [encodedLength, Config.maxLen]⟩

theorem fsmOtherInSeekSecond (b : Byte) : Statement (.fsmOtherInSeekSecond b) :=
  ⟨rfl, fun _ => by simp [encodedLength, Config.maxLen]⟩

theorem fsmBodyComplete : Statement .fsmBodyComplete :=
  ⟨rfl, fun _ => by simp [encodedLength, Config.maxLen]⟩

theorem fsmBodyIncomplete : Statement .fsmBodyIncomplete :=
  ⟨rfl, fun _ => by simp [encodedLength, Config.maxLen]⟩

end Sys2Proof.Laws.EncodedLength
end

