-- ==== Sys2Proof/Laws/Rows.lean ====
section
/-!
SUPPORT. Everything a row of the sync-search machine can do: where it runs and the state it answers (R123 to R129), and
that it is then one pass of R122's loop.
-/
namespace Sys2Proof.Machine

/-- A row's meaning is a transition behind a check on the scan in progress: where it answers a next state. -/
theorem row_next_iff (s t : State) (d : DecoderState) (p : Scan → Prop) [DecidablePred p] (f : State → Scan → State) :
    (match scanIn s d with
      | some sc => if p sc then Host.Outcome.next (f s sc) else .refused Refusal.transitionNotEnabled
      | none => .refused Refusal.transitionNotEnabled) = (.next t : Host.Outcome State Fault Refusal) ↔
    ∃ sc, s.scan = some sc ∧ sc.done = false ∧ s.decoderState = d.bits ∧ p sc ∧ t = f s sc := by
  cases h : scanIn s d with
  | none =>
    simp only [reduceCtorEq, false_iff]
    rintro ⟨sc, h1, h2, h3, -⟩
    rw [(scanIn_eq_some_iff s d sc).mpr ⟨h1, h2, h3⟩] at h
    cases h
  | some sc =>
    obtain ⟨h1, h2, h3⟩ := (scanIn_eq_some_iff s d sc).mp h
    by_cases hp : p sc
    · simp only [hp, if_true, Host.Outcome.next.injEq]
      constructor
      · rintro rfl; exact ⟨sc, h1, h2, h3, hp, rfl⟩
      · rintro ⟨sc', h1', -, -, -, rfl⟩; rw [h1] at h1'; cases h1'; rfl
    · simp only [hp, if_false, reduceCtorEq, false_iff]
      rintro ⟨sc', h1', -, -, hp', -⟩
      rw [h1] at h1'; cases h1'; exact hp hp'

/-- FSM_SYNC_IN_SEEK_FIRST (R123). -/
theorem execFsmSyncInSeekFirst_next (s t : State) : execFsmSyncInSeekFirst s = .next t ↔
    ∃ sc, s.scan = some sc ∧ sc.done = false ∧ s.decoderState = DecoderState.seekFirstSync.bits ∧
      scanByte sc = some Config.syncByte ∧ t = matchFirstSync s sc :=
  row_next_iff s t .seekFirstSync (fun sc => scanByte sc = some Config.syncByte) matchFirstSync

/-- FSM_OTHER_IN_SEEK_FIRST (R124). -/
theorem execFsmOtherInSeekFirst_next (b : Byte) (s t : State) : execFsmOtherInSeekFirst b s = .next t ↔
    ∃ sc, s.scan = some sc ∧ sc.done = false ∧ s.decoderState = DecoderState.seekFirstSync.bits ∧
      (scanByte sc = some b ∧ b ≠ Config.syncByte) ∧ t = skipGarbage s sc :=
  row_next_iff s t .seekFirstSync (fun sc => scanByte sc = some b ∧ b ≠ Config.syncByte) skipGarbage

/-- FSM_SYNC_IN_SEEK_SECOND (R125). -/
theorem execFsmSyncInSeekSecond_next (s t : State) : execFsmSyncInSeekSecond s = .next t ↔
    ∃ sc, s.scan = some sc ∧ sc.done = false ∧ s.decoderState = DecoderState.seekSecondSync.bits ∧
      scanByte sc = some Config.syncByte ∧ t = matchSecondSync s sc :=
  row_next_iff s t .seekSecondSync (fun sc => scanByte sc = some Config.syncByte) matchSecondSync

/-- FSM_OTHER_IN_SEEK_SECOND (R126). -/
theorem execFsmOtherInSeekSecond_next (b : Byte) (s t : State) : execFsmOtherInSeekSecond b s = .next t ↔
    ∃ sc, s.scan = some sc ∧ sc.done = false ∧ s.decoderState = DecoderState.seekSecondSync.bits ∧
      (scanByte sc = some b ∧ b ≠ Config.syncByte) ∧ t = failSecondSync s sc :=
  row_next_iff s t .seekSecondSync (fun sc => scanByte sc = some b ∧ b ≠ Config.syncByte) failSecondSync

/-- FSM_BODY_COMPLETE (R128, R129). -/
theorem execFsmBodyComplete_next (s t : State) : execFsmBodyComplete s = .next t ↔
    ∃ sc, s.scan = some sc ∧ sc.done = false ∧ s.decoderState = DecoderState.awaitingBody.bits ∧
      Config.bodyLen ≤ (scanLeft sc).length ∧ t = takeCandidate s sc :=
  row_next_iff s t .awaitingBody (fun sc => Config.bodyLen ≤ (scanLeft sc).length) takeCandidate

/-- FSM_BODY_INCOMPLETE (R127). -/
theorem execFsmBodyIncomplete_next (s t : State) : execFsmBodyIncomplete s = .next t ↔
    ∃ sc, s.scan = some sc ∧ sc.done = false ∧ s.decoderState = DecoderState.awaitingBody.bits ∧
      (scanLeft sc).length < Config.bodyLen ∧ t = leaveIncomplete s sc :=
  row_next_iff s t .awaitingBody (fun sc => (scanLeft sc).length < Config.bodyLen) leaveIncomplete

/-- The row that a running scan decodes to answers exactly what one pass of the loop gives (R122). -/
theorem exec_decoded_row {s : State} {sc : Scan} {d : DecoderState} {i : Instr} (hs : s.scan = some sc)
    (hdone : sc.done = false) (hd : s.decoderState = d.bits) (hi : decodeScan d (scanLeft sc) = some i) :
    ∃ t, exec i s = .next t ∧ scanPass s sc = some t := by
  cases d with
  | awaitingBody =>
    rw [scanPass_awaiting hd hdone, ← scanLeft_length]
    by_cases h : 17 ≤ (scanLeft sc).length
    · have hi' : i = .fsmBodyComplete := by simpa [decodeScan, Config.bodyLen, h, -scanLeft_length] using hi.symm
      subst hi'
      exact ⟨takeCandidate s sc, (execFsmBodyComplete_next s _).mpr ⟨sc, hs, hdone, hd, h, rfl⟩, by rw [if_pos h]⟩
    · have hi' : i = .fsmBodyIncomplete := by simpa [decodeScan, Config.bodyLen, h, -scanLeft_length] using hi.symm
      subst hi'
      exact ⟨leaveIncomplete s sc, (execFsmBodyIncomplete_next s _).mpr
        ⟨sc, hs, hdone, hd, Nat.lt_of_not_le h, rfl⟩, by rw [if_neg h]⟩
  | seekFirstSync =>
    cases hl : scanLeft sc with
    | nil => simp [decodeScan, hl] at hi
    | cons b rest =>
      have hb : scanByte sc = some b := by rw [scanByte_eq_head?, hl]; rfl
      rw [scanPass_seekFirst hd hdone hl]
      simp only [decodeScan, hl] at hi
      split at hi
      · cases hi; subst b
        exact ⟨matchFirstSync s sc, (execFsmSyncInSeekFirst_next s _).mpr ⟨sc, hs, hdone, hd, hb, rfl⟩, by simp⟩
      · cases hi
        exact ⟨skipGarbage s sc, (execFsmOtherInSeekFirst_next b s _).mpr ⟨sc, hs, hdone, hd, ⟨hb, ‹_›⟩, rfl⟩,
          by simp [*]⟩
  | seekSecondSync =>
    cases hl : scanLeft sc with
    | nil => simp [decodeScan, hl] at hi
    | cons b rest =>
      have hb : scanByte sc = some b := by rw [scanByte_eq_head?, hl]; rfl
      rw [scanPass_seekSecond hd hdone hl]
      simp only [decodeScan, hl] at hi
      split at hi
      · cases hi; subst b
        exact ⟨matchSecondSync s sc, (execFsmSyncInSeekSecond_next s _).mpr ⟨sc, hs, hdone, hd, hb, rfl⟩, by simp⟩
      · cases hi
        exact ⟨failSecondSync s sc, (execFsmOtherInSeekSecond_next b s _).mpr ⟨sc, hs, hdone, hd, ⟨hb, ‹_›⟩, rfl⟩,
          by simp [*]⟩

/-- Where a row answers a next state, a scan is running that decodes to it, and the answer is one pass of the loop. -/
theorem exec_row_next {i : Instr} {s t : State} (hi : isRow i = true) (h : exec i s = .next t) :
    ∃ sc d, s.scan = some sc ∧ sc.done = false ∧ s.decoderState = d.bits ∧
      decodeScan d (scanLeft sc) = some i ∧ scanPass s sc = some t := by
  have key : ∀ sc d, s.scan = some sc → sc.done = false → s.decoderState = d.bits →
      decodeScan d (scanLeft sc) = some i → ∃ sc d, s.scan = some sc ∧ sc.done = false ∧
        s.decoderState = d.bits ∧ decodeScan d (scanLeft sc) = some i ∧ scanPass s sc = some t := by
    intro sc d a b c e
    obtain ⟨u, hu, hp⟩ := exec_decoded_row a b c e
    rw [h] at hu; cases hu
    exact ⟨sc, d, a, b, c, e, hp⟩
  cases i with
  | fsmSyncInSeekFirst =>
    obtain ⟨sc, a, b, c, e, rfl⟩ := (execFsmSyncInSeekFirst_next s t).mp h
    refine key sc .seekFirstSync a b c ?_
    rw [scanByte_eq_head?] at e
    match hl : scanLeft sc, e with
    | x :: xs, e => simp at e; subst e; simp [decodeScan]
  | fsmOtherInSeekFirst b' =>
    obtain ⟨sc, a, b, c, ⟨e, e'⟩, rfl⟩ := (execFsmOtherInSeekFirst_next b' s t).mp h
    refine key sc .seekFirstSync a b c ?_
    rw [scanByte_eq_head?] at e
    match hl : scanLeft sc, e with
    | x :: xs, e => simp at e; subst e; simp [decodeScan, e']
  | fsmSyncInSeekSecond =>
    obtain ⟨sc, a, b, c, e, rfl⟩ := (execFsmSyncInSeekSecond_next s t).mp h
    refine key sc .seekSecondSync a b c ?_
    rw [scanByte_eq_head?] at e
    match hl : scanLeft sc, e with
    | x :: xs, e => simp at e; subst e; simp [decodeScan]
  | fsmOtherInSeekSecond b' =>
    obtain ⟨sc, a, b, c, ⟨e, e'⟩, rfl⟩ := (execFsmOtherInSeekSecond_next b' s t).mp h
    refine key sc .seekSecondSync a b c ?_
    rw [scanByte_eq_head?] at e
    match hl : scanLeft sc, e with
    | x :: xs, e => simp at e; subst e; simp [decodeScan, e']
  | fsmBodyComplete =>
    obtain ⟨sc, a, b, c, e, rfl⟩ := (execFsmBodyComplete_next s t).mp h
    exact key sc .awaitingBody a b c (by simp only [decodeScan, if_pos e])
  | fsmBodyIncomplete =>
    obtain ⟨sc, a, b, c, e, rfl⟩ := (execFsmBodyIncomplete_next s t).mp h
    exact key sc .awaitingBody a b c (by simp only [decodeScan, if_neg (Nat.not_le_of_lt e)])
  | _ => simp [isRow, rowState] at hi

end Sys2Proof.Machine
end

