-- ==== Sys2Proof/Laws/Run.lean ====
section
/-!
SUPPORT. Runs of the block, step by step.
-/
namespace Sys2Proof.Machine

@[simp] theorem runSteps_zero (s : State) : runSteps 0 s = .next s := rfl

/-- A run whose first step answers a next state. -/
theorem runSteps_next {s t : State} (h : step s = .next t) (n : Nat) : runSteps (n + 1) s = runSteps n t := by
  simp only [runSteps, h]

/-- A run whose first step faults. -/
theorem runSteps_fault {s : State} {r : Fault} (h : step s = .fault r) (n : Nat) : runSteps (n + 1) s = .fault r := by
  simp only [runSteps, h]

/-- A run whose first step is refused. -/
theorem runSteps_refused {s : State} {r : Refusal} (h : step s = .refused r) (n : Nat) :
    runSteps (n + 1) s = .refused r := by
  simp only [runSteps, h]

/-- A run of at least one step that answers a next state took a first step that did. -/
theorem runSteps_succ {s u : State} {n : Nat} (h : runSteps (n + 1) s = .next u) :
    ∃ t, step s = .next t ∧ runSteps n t = .next u := by
  rw [runSteps] at h
  cases hs : step s with
  | next t => rw [hs] at h; exact ⟨t, rfl, h⟩
  | fault r => rw [hs] at h; cases h
  | refused r => rw [hs] at h; cases h

/-- A run in two parts. -/
theorem runSteps_add (b : Nat) {t : State} : ∀ (a : Nat) (s : State), runSteps a s = .next t →
    runSteps (a + b) s = runSteps b t
  | 0, s, h => by cases h; rw [Nat.zero_add]
  | a + 1, s, h => by
    obtain ⟨u, hu, hr⟩ := runSteps_succ h
    rw [Nat.add_right_comm, runSteps_next hu]
    exact runSteps_add b a u hr

/-- `runSteps` is the host's run of the block's machine. -/
theorem runSteps_eq_core (n : Nat) : ∀ s : Sys2Proof.core.State, runSteps n s = Host.Core.run Sys2Proof.core n s := by
  induction n with
  | zero => intro s; rfl
  | succ n ih =>
    intro s
    refine Eq.trans ?_ (Host.Core.run.eq_2 Sys2Proof.core s n).symm
    cases hs : Sys2Proof.core.step s with
    | next t => exact (runSteps_next hs n).trans (ih t)
    | fault r => exact runSteps_fault hs n
    | refused r => exact runSteps_refused hs n

end Sys2Proof.Machine
end

