-- ==== Sys2Proof/Laws/Scan.lean ====
section
/-!
SUPPORT. R122's loop as a whole: where it stops, by the first sync marker among the bytes not yet scanned.
-/
namespace Sys2Proof.Machine

/-! ## The first sync marker of a list of bytes -/

theorem syncAt_cons_succ (b : Byte) (v : List Byte) (k : Nat) : SyncAt (b :: v) (k + 1) ↔ SyncAt v k := by
  simp [SyncAt]

theorem syncAt_zero (v : List Byte) : SyncAt v 0 ↔ ∃ u, v = Config.syncByte :: Config.syncByte :: u := by
  unfold SyncAt
  match v with
  | [] => simp
  | [a] => simp
  | a :: b :: u => simp

/-- A marker lies within the list. -/
theorem SyncAt.length {v : List Byte} {k : Nat} (h : SyncAt v k) : k + 2 ≤ v.length := by
  obtain ⟨h, -⟩ := List.getElem?_eq_some_iff.mp h.2
  omega

/-- A first marker behind a byte that begins none. -/
theorem firstSync_cons {b : Byte} {v : List Byte} (h : ¬ SyncAt (b :: v) 0) (k : Nat) :
    FirstSync (b :: v) k ↔ ∃ j, k = j + 1 ∧ FirstSync v j := by
  constructor
  · rintro ⟨h1, h2⟩
    cases k with
    | zero => exact absurd h1 h
    | succ j =>
      refine ⟨j, rfl, (syncAt_cons_succ b v j).mp h1, fun i hi hs => ?_⟩
      exact h2 (i + 1) (by omega) ((syncAt_cons_succ b v i).mpr hs)
  · rintro ⟨j, rfl, h1, h2⟩
    refine ⟨(syncAt_cons_succ b v j).mpr h1, fun i hi hs => ?_⟩
    cases i with
    | zero => exact h hs
    | succ i => exact h2 i (by omega) ((syncAt_cons_succ b v i).mp hs)

theorem noSync_cons {b : Byte} {v : List Byte} (h : ¬ SyncAt (b :: v) 0) : NoSync (b :: v) ↔ NoSync v := by
  constructor
  · intro hn k hk; exact hn (k + 1) ((syncAt_cons_succ b v k).mpr hk)
  · intro hn k hk
    cases k with
    | zero => exact h hk
    | succ k => exact hn k ((syncAt_cons_succ b v k).mp hk)

/-- A list of bytes holds no marker, or a first one. -/
theorem noSync_or_firstSync (v : List Byte) : NoSync v ∨ ∃ k, FirstSync v k := by
  classical
  by_cases h : ∃ k, SyncAt v k
  · exact .inr ⟨Nat.find h, Nat.find_spec h, fun j hj => Nat.find_min h hj⟩
  · exact .inl fun k hk => h ⟨k, hk⟩

/-- The first marker is one place. -/
theorem FirstSync.unique {v : List Byte} {j k : Nat} (hj : FirstSync v j) (hk : FirstSync v k) : j = k := by
  rcases Nat.lt_trichotomy j k with h | h | h
  · exact absurd hj.1 (hk.2 j h)
  · exact h
  · exact absurd hk.1 (hj.2 k h)

/-! ## The loop -/

/-- A loop that takes a pass. -/
theorem scanLoop_pass {s t : State} {sc : Scan} (hs : s.scan = some sc) (hp : scanPass s sc = some t) (n : Nat) :
    scanLoop (n + 1) s = scanLoop n t := by
  simp [scanLoop, hs, hp]

/-- A loop that has ended. -/
theorem scanLoop_stop {s : State} {sc : Scan} (hs : s.scan = some sc) (hp : scanPass s sc = none) (n : Nat) :
    scanLoop n s = s := by
  cases n <;> simp [scanLoop, hs, hp]

/-- Where the loop stops on a running scan in SeekFirstSync with `rel = i` (R131, R133). -/
structure ScanStop (s : State) (sc : Scan) (t : State) : Prop where
  /-- No marker is left: the view is exhausted, with a trailing lone 0xAA kept. -/
  exhausted : NoSync (scanLeft sc) → t = { s with
    decoderState :=
      if (scanLeft sc).getLast? = some Config.syncByte then DecoderState.seekSecondSync.bits
      else DecoderState.seekFirstSync.bits
    scan := some { sc with
      i := sc.view.length
      rel := if (scanLeft sc).getLast? = some Config.syncByte then sc.view.length - 1 else sc.view.length } }
  /-- Fewer than 17 bytes behind the first marker: everything from the marker on is kept. -/
  incomplete : ∀ k, FirstSync (scanLeft sc) k → (scanLeft sc).length < k + 19 → t = { s with
    decoderState := DecoderState.awaitingBody.bits
    scan := some { sc with i := sc.i + k + 2, rel := sc.i + k, done := true } }
  /-- At least 17 bytes behind it: they are the candidate. -/
  complete : ∀ k, FirstSync (scanLeft sc) k → k + 19 ≤ (scanLeft sc).length →
    t = takeCandidate { s with decoderState := DecoderState.awaitingBody.bits }
      { sc with i := sc.i + k + 2, rel := sc.i + k }

/-- `ScanStop` from the state behind bytes that begin no marker. -/
theorem ScanStop.behind {s t : State} {sc : Scan} {skipped rest : List Byte}
    (hl : scanLeft sc = skipped ++ rest)
    (hn : NoSync (skipped ++ rest) ↔ NoSync rest)
    (hf : ∀ k, FirstSync (skipped ++ rest) k → ∃ j, k = j + skipped.length ∧ FirstSync rest j)
    (hlast : (skipped ++ rest).getLast? = some Config.syncByte ↔ rest.getLast? = some Config.syncByte)
    (h : ScanStop s { sc with i := sc.i + skipped.length, rel := sc.i + skipped.length } t) :
    ScanStop s sc t := by
  have hrest : scanLeft { sc with i := sc.i + skipped.length, rel := sc.i + skipped.length } = rest := by
    have : scanLeft { sc with i := sc.i + skipped.length, rel := sc.i + skipped.length }
        = (scanLeft sc).drop skipped.length := by simp [scanLeft]
    rw [this, hl]; simp
  constructor
  · intro hns
    rw [hl] at hns ⊢
    rw [h.exhausted (by rw [hrest]; exact hn.mp hns), hrest]
    simp only [hlast]
  · intro k hk hlt
    rw [hl] at hk hlt
    obtain ⟨j, rfl, hj⟩ := hf k hk
    rw [h.incomplete j (by rw [hrest]; exact hj) (by rw [hrest]; simp at hlt; omega)]
    simp only [Nat.add_comm, Nat.add_left_comm]
  · intro k hk hlt
    rw [hl] at hk hlt
    obtain ⟨j, rfl, hj⟩ := hf k hk
    rw [h.complete j (by rw [hrest]; exact hj) (by rw [hrest]; simp at hlt; omega)]
    simp only [Nat.add_comm, Nat.add_left_comm]

/-- A last byte behind one that is no sync byte. -/
theorem getLast?_cons_sync {b : Byte} (hb : b ≠ Config.syncByte) (v : List Byte) :
    (b :: v).getLast? = some Config.syncByte ↔ v.getLast? = some Config.syncByte := by
  cases v with
  | nil => simp [hb]
  | cons c w => rw [List.getLast?_cons_cons]

theorem not_syncAt_zero_of_fst {b : Byte} (hb : b ≠ Config.syncByte) (v : List Byte) : ¬ SyncAt (b :: v) 0 := by
  rw [syncAt_zero]; rintro ⟨u, h⟩; exact hb (List.cons.inj h).1

theorem not_syncAt_zero_of_snd {c : Byte} (hc : c ≠ Config.syncByte) (b : Byte) (v : List Byte) :
    ¬ SyncAt (b :: c :: v) 0 := by
  rw [syncAt_zero]; rintro ⟨u, h⟩; exact hc (List.cons.inj (List.cons.inj h).2).1

/-- The loop on a running scan in SeekFirstSync stops as `ScanStop` says, and one pass more than the bytes left is enough
(R122). -/
theorem scanLoop_stops (n : Nat) : ∀ (s : State) (sc : Scan), (scanLeft sc).length < n → s.scan = some sc →
    sc.done = false → s.decoderState = DecoderState.seekFirstSync.bits → sc.rel = sc.i → sc.i ≤ sc.view.length →
    ScanStop s sc (scanLoop n s) := by
  induction n using Nat.strongRecOn with
  | _ n ih =>
  intro s sc hn hs hdone hd hrel hle
  have hlen := scanLeft_length sc
  match n, hl : scanLeft sc with
  | 0, _ => omega
  | n + 1, [] =>
    rw [scanLoop_stop hs (scanPass_exhausted (by rw [hd]; decide) hl)]
    have hi : sc.i = sc.view.length := by rw [hl] at hlen; simp at hlen; omega
    constructor
    · intro _
      cases s; cases sc; simp_all
    · intro k hk; rw [hl] at hk; simpa using hk.1.length
    · intro k hk; rw [hl] at hk; simpa using hk.1.length
  | n + 1, b :: rest =>
    rw [hl] at hn hlen
    simp only [List.length_cons] at hn hlen
    rw [scanLoop_pass hs (scanPass_seekFirst hd hdone hl)]
    by_cases hb : b = Config.syncByte
    · subst hb
      simp only [if_true, matchFirstSync_eq]
      have hl' : scanLeft { sc with i := sc.i + 1, rel := sc.rel } = rest := by rw [scanLeft_succ, hl]; rfl
      match rest, hl' with
      | [], hl' =>
        rw [scanLoop_stop rfl (scanPass_exhausted (by simp [DecoderState.bits]) hl')]
        constructor
        · intro _
          have hi : sc.i + 1 = sc.view.length := by simp at hlen; omega
          rw [hl]
          simp only [List.getLast?_singleton, if_true]
          have hr : sc.rel = sc.view.length - 1 := by omega
          simp only [consumeByte, hi, hr]
        · intro k hk; rw [hl] at hk; simpa using hk.1.length
        · intro k hk; rw [hl] at hk; simpa using hk.1.length
      | c :: rest, hl' =>
        simp only [List.length_cons] at hn hlen
        obtain ⟨n, rfl⟩ : ∃ m, n = m + 1 := ⟨n - 1, by omega⟩
        rw [scanLoop_pass rfl (scanPass_seekSecond (sc := { sc with i := sc.i + 1, rel := sc.rel }) rfl hdone hl')]
        by_cases hc : c = Config.syncByte
        · subst hc
          simp only [if_true, matchSecondSync_eq]
          have h0 : FirstSync (scanLeft sc) 0 :=
            ⟨by rw [hl]; exact (syncAt_zero _).mpr ⟨rest, rfl⟩, fun j hj => absurd hj (Nat.not_lt_zero j)⟩
          obtain ⟨n, rfl⟩ : ∃ m, n = m + 1 := ⟨n - 1, by omega⟩
          rw [scanLoop_pass rfl (scanPass_awaiting (sc := { sc with i := sc.i + 2, rel := sc.rel }) rfl hdone)]
          constructor
          · intro hns; exact absurd h0.1 (hns 0)
          · intro k hk hlt
            cases h0.unique hk
            rw [if_neg (by simp only [scanLeft_length] at hlt ⊢; omega), scanLoop_stop rfl (scanPass_done _ _ rfl)]
            simp [leaveIncomplete, consumeByte, hrel]
          · intro k hk hlt
            cases h0.unique hk
            rw [if_pos (by simp only [scanLeft_length] at hlt ⊢; omega),
              scanLoop_stop (takeCandidate_scan _ _) (scanPass_done _ _ rfl)]
            simp only [Nat.add_zero, ← hrel]
            rfl
        · rw [if_neg hc, failSecondSync_eq]
          have h := ih n (by omega) (consumeByte (consumeByte s sc .seekSecondSync sc.rel)
            { sc with i := sc.i + 1, rel := sc.rel } .seekFirstSync (sc.i + 2)) { sc with i := sc.i + 2, rel := sc.i + 2 }
            (by rw [scanLeft_length]; simp only; omega) rfl hdone rfl rfl (by simp only; omega)
          refine ScanStop.behind (skipped := [Config.syncByte, c]) (rest := rest) hl ?_ ?_ ?_
            ⟨h.exhausted, h.incomplete, h.complete⟩
          · exact (noSync_cons (not_syncAt_zero_of_snd hc _ _)).trans (noSync_cons (not_syncAt_zero_of_fst hc _))
          · intro k hk
            obtain ⟨j, rfl, hj⟩ := (firstSync_cons (not_syncAt_zero_of_snd hc _ _) k).mp hk
            obtain ⟨m, rfl, hm⟩ := (firstSync_cons (not_syncAt_zero_of_fst hc _) j).mp hj
            exact ⟨m, rfl, hm⟩
          · show (Config.syncByte :: c :: rest).getLast? = _ ↔ _
            rw [List.getLast?_cons_cons, getLast?_cons_sync hc]
    · rw [if_neg hb, skipGarbage_eq]
      have h := ih n (by omega) (consumeByte s sc .seekFirstSync (sc.i + 1))
        { sc with i := sc.i + 1, rel := sc.i + 1 }
        (by rw [scanLeft_length]; simp only; omega) rfl hdone rfl rfl (by simp only; omega)
      refine ScanStop.behind (skipped := [b]) (rest := rest) hl ?_ ?_ ?_ ⟨h.exhausted, h.incomplete, h.complete⟩
      · exact noSync_cons (not_syncAt_zero_of_fst hb _)
      · intro k hk; exact (firstSync_cons (not_syncAt_zero_of_fst hb _) k).mp hk
      · exact getLast?_cons_sync hb _

/-- The loop of a POLL, from its start: `L + 1` passes are enough (R122). -/
theorem pollBegin_stops (s : State) : ScanStop (pollBegin s)
    { view := s.q, i := 0, rel := 0, ev := none, done := false } (scanLoop (s.q.length + 1) (pollBegin s)) :=
  scanLoop_stops _ _ _ (by simp [scanLeft]) rfl rfl rfl rfl (Nat.zero_le _)

/-! ## What a pass keeps -/

/-- The candidate has 17 bytes where as many are left (R128). -/
theorem candidate_length {sc : Scan} (h : 17 ≤ sc.view.length - sc.i) : (candidate sc).length = 17 := by
  simp [candidate, scanLeft, Config.bodyLen]; omega

/-- A pass leaves the buffer, `QCAP`, the latest response and the inputs alone. -/
theorem scanPass_fields {s t : State} {sc : Scan} (hp : scanPass s sc = some t) :
    t.q = s.q ∧ t.qcap = s.qcap ∧ t.response = s.response ∧ t.inputs = s.inputs := by
  unfold scanPass at hp
  repeat' split at hp
  all_goals cases hp
  all_goals simp

/-- A pass writes LastFrame only with the frame of a body in the view that passes the checksum (R129). -/
theorem scanPass_lastFrame {s t : State} {sc : Scan} (hp : scanPass s sc = some t) :
    t.lastFrame = s.lastFrame ∨ ∃ body, body.length = 17 ∧ checksumOk body = true ∧ body <:+: sc.view ∧
      t.lastFrame = some (unpack body) := by
  unfold scanPass at hp
  repeat' split at hp
  all_goals cases hp
  all_goals try exact .inl rfl
  rw [takeCandidate_lastFrame]
  split
  · refine .inr ⟨candidate sc, candidate_length ?_, ‹_›, ?_, rfl⟩
    · have h := ‹Config.bodyLen ≤ (scanLeft sc).length›
      rw [scanLeft_length] at h
      exact h
    · exact (List.take_prefix _ _).isInfix.trans (List.drop_suffix _ _).isInfix
  · exact .inl rfl

/-- The first byte left is the byte at the scan index, which is within the view. -/
theorem scanLeft_cons {sc : Scan} {b : Byte} {rest : List Byte} (h : scanLeft sc = b :: rest) :
    sc.i < sc.view.length ∧ sc.view[sc.i]? = some b := by
  have h1 := scanLeft_length sc
  rw [h] at h1
  simp only [List.length_cons] at h1
  have h2 := scanByte_eq_head? sc
  rw [h] at h2
  exact ⟨by omega, h2⟩

/-- A POLL's start meets `ScanOk` (R121, R133). -/
theorem pollBegin_scanOk (s : State) :
    ScanOk (pollBegin s) { view := s.q, i := 0, rel := 0, ev := none, done := false } :=
  ⟨List.prefix_refl _, Nat.zero_le _, Nat.zero_le _, .inl rfl, fun _ => ⟨rfl, .seekFirstSync, rfl, rfl⟩, by simp⟩

/-- A pass is taken by a running scan only. -/
theorem scanPass_running {s t : State} {sc : Scan} (hp : scanPass s sc = some t) : sc.done = false := by
  cases h : sc.done with
  | false => rfl
  | true => rw [scanPass_done s sc h] at hp; cases hp

/-- A pass keeps `ScanOk` and the view (R133). -/
theorem scanPass_scanOk {s t : State} {sc : Scan} (ho : ScanOk s sc) (hp : scanPass s sc = some t) :
    ∃ sc', t.scan = some sc' ∧ ScanOk t sc' ∧ sc'.view = sc.view := by
  have hdone := scanPass_running hp
  obtain ⟨h1, h2, h3, h4, h5, h6⟩ := ho
  obtain ⟨hev, d, hd, hat⟩ := h5 hdone
  have hb := (ofBits_eq_some_iff _ _).mp hd
  cases d with
  | seekFirstSync =>
    cases hl : scanLeft sc with
    | nil => rw [scanPass_exhausted (by rw [hb]; decide) hl] at hp; cases hp
    | cons b rest =>
      obtain ⟨hi, hv⟩ := scanLeft_cons hl
      rw [scanPass_seekFirst hb hdone hl] at hp
      have hat' : sc.rel = sc.i := hat
      by_cases hc : b = Config.syncByte
      · subst hc; rw [if_pos rfl] at hp; cases hp
        refine ⟨_, rfl, ⟨h1, by simp; omega, h3, h4, fun _ => ⟨hev, .seekSecondSync, by simp, ?_⟩, fun h => by simp [hdone] at h⟩, rfl⟩
        exact ⟨by simp [hat'], by simp only [hat']; exact hv⟩
      · rw [if_neg hc] at hp; cases hp
        exact ⟨_, rfl, ⟨h1, by simp; omega, by simp; omega, h4, fun _ => ⟨hev, .seekFirstSync, by simp, rfl⟩, fun h => by simp [hdone] at h⟩, rfl⟩
  | seekSecondSync =>
    cases hl : scanLeft sc with
    | nil => rw [scanPass_exhausted (by rw [hb]; decide) hl] at hp; cases hp
    | cons b rest =>
      obtain ⟨hi, hv⟩ := scanLeft_cons hl
      rw [scanPass_seekSecond hb hdone hl] at hp
      obtain ⟨ha, hv'⟩ := hat
      by_cases hc : b = Config.syncByte
      · subst hc; rw [if_pos rfl] at hp; cases hp
        refine ⟨_, rfl, ⟨h1, by simp; omega, h3, h4, fun _ => ⟨hev, .awaitingBody, by simp, ?_⟩, fun h => by simp [hdone] at h⟩, rfl⟩
        exact ⟨by simp only; omega, hv', by simp only [ha]; exact hv⟩
      · rw [if_neg hc] at hp; cases hp
        exact ⟨_, rfl, ⟨h1, by simp; omega, by simp; omega, h4, fun _ => ⟨hev, .seekFirstSync, by simp, rfl⟩, fun h => by simp [hdone] at h⟩, rfl⟩
  | awaitingBody =>
    rw [scanPass_awaiting hb hdone] at hp
    by_cases hc : 17 ≤ sc.view.length - sc.i
    · rw [if_pos hc] at hp; cases hp
      refine ⟨_, takeCandidate_scan s sc, ⟨by simpa [candidateTaken] using h1, by simp [candidateTaken, Config.bodyLen]; omega, by simp [candidateTaken, Config.bodyLen]; omega, ?_, by simp [candidateTaken], by simp [hb]⟩, rfl⟩
      rw [takeCandidate_lastFrame]
      split <;> simp [hev]
    · rw [if_neg hc] at hp; cases hp
      exact ⟨_, rfl, ⟨h1, h2, h3, h4, by simp, by simp [hb]⟩, rfl⟩

end Sys2Proof.Machine
end

