-- ==== Sys2Proof/Tests/Slice0.lean ====
section
/-!
SUPPORT. The model's own tests. Expected results are the spec's vectors (95_test_vectors.md) or worked out by hand from the
encodings. The theorems `witness_…` show that the hypotheses of the statement of that name can be met together.
-/
namespace Sys2Proof.Tests
open Sys2Proof Sys2Proof.Machine

/-! ## Helpers -/

/-- Scenario A (95_test_vectors.md). -/
def frameA : List Byte :=
  [0xAA#8, 0xAA#8, 0xDE#8, 0x01#8, 0x00#8, 0x92#8, 0xFF#8, 0x25#8, 0x08#8, 0x8D#8, 0xFE#8, 0xEC#8, 0xFF#8, 0xD1#8,
   0x03#8, 0x00#8, 0x00#8, 0x00#8, 0xE7#8]

/-- FA, the frame of Scenario A; negative fields as their 16-bit words. -/
def frameFA : RawFrame where
  index := 0xDE#8
  yaw := 1#16
  pitch := BitVec.ofInt 16 (-110)
  roll := 2085#16
  xAcc := BitVec.ofInt 16 (-371)
  yAcc := BitVec.ofInt 16 (-20)
  zAcc := 977#16
  motionIntent := 0#8
  motionRequest := 0#8
  rsvd := 0#8
  csum := 0xE7#8

/-- The reset state with capacity 76 and content `q`. -/
def holding (q : List Byte) : State := { State.constructed 76 with q := q }

/-- A POLL in progress over `view`. -/
def scanning (d : DecoderState) (view : List Byte) (i rel : Nat) : State :=
  { holding view with
    decoderState := d.bits
    scan := some { view := view, i := i, rel := rel, ev := none, done := false } }

/-- The state of an outcome. -/
def after : Host.Outcome State Fault Refusal → Option State
  | .next t => some t
  | _ => none

/-- The buffer, the status and the frame an outcome shows. -/
def shown (o : Host.Outcome State Fault Refusal) : Option (List Byte × Option Status × Option RawFrame) :=
  (after o).map fun t => (t.q, t.response.map Response.status, t.response.bind Response.frame)

/-- The scan state, the scan index and the release count an outcome shows. -/
def scanShown (o : Host.Outcome State Fault Refusal) : Option (BitVec 2 × Option (Nat × Nat)) :=
  (after o).map fun t => (t.decoderState, t.scan.map fun sc => (sc.i, sc.rel))

/-- The state with one request as its only input. -/
def asked (s : State) (agent : Agent) (port : Nat) (context : Context) (bytes : List Byte) : State :=
  { s with inputs := [.request { agent := agent, port := port, context := context, bytes := bytes }] }

/-! ## Well-formedness refuses what no encoding spells -/

theorem test_illformed_submit : WellFormed (.submit (List.replicate 4096 0#8)) = false := by decide +kernel
theorem test_illformed_poll_len : WellFormed (.reservedPollLen 0#12) = false := by decide
theorem test_illformed_last_frame_len : WellFormed (.reservedLastFrameLen 0#12) = false := by decide
theorem test_illformed_other_first : WellFormed (.fsmOtherInSeekFirst 0xAA#8) = false := by decide
theorem test_illformed_other_second : WellFormed (.fsmOtherInSeekSecond 0xAA#8) = false := by decide

/-! ## Decoding, each word written out from its encoding (R70 to R73, R67) -/

/-- `0001 000000000010`, then two payload bytes, then a byte left over. -/
theorem test_decode_submit :
    decodeCommand [0x10#8, 0x02#8, 0x55#8, 0xAA#8, 0x20#8] = .ok (.submit [0x55#8, 0xAA#8], [0x20#8]) := rfl
/-- `0010 000000000000`. -/
theorem test_decode_poll : decodeCommand [0x20#8, 0x00#8] = .ok (.poll, []) := rfl
/-- `0011 000000000000`. -/
theorem test_decode_last_frame : decodeCommand [0x30#8, 0x00#8] = .ok (.lastFrame, []) := rfl
/-- `0000 111111111111`. -/
theorem test_decode_reserved_op0 : decodeCommand [0x0F#8, 0xFF#8] = .ok (.reservedOp0 0xFFF#12, []) := rfl
/-- `01 11111111111111`. -/
theorem test_decode_reserved_op4_7 : decodeCommand [0x7F#8, 0xFF#8] = .ok (.reservedOp4to7 0x3FFF#14, []) := rfl
/-- `1 000000000000001`. -/
theorem test_decode_reserved_op8_f : decodeCommand [0x80#8, 0x01#8] = .ok (.reservedOp8toF 1#15, []) := rfl
/-- `0010 000000000001`. -/
theorem test_decode_reserved_poll_len : decodeCommand [0x20#8, 0x01#8] = .ok (.reservedPollLen 1#12, []) := rfl
/-- `0011 111111111111`. -/
theorem test_decode_reserved_last_frame_len :
    decodeCommand [0x3F#8, 0xFF#8] = .ok (.reservedLastFrameLen 0xFFF#12, []) := rfl
theorem test_decode_incomplete_word : decodeCommand [0x20#8] = .error .incompleteWord := rfl
theorem test_decode_incomplete_payload : decodeCommand [0x10#8, 0x02#8, 0x55#8] = .error .incompletePayload := rfl
theorem test_decode_sync_first : decodeScan .seekFirstSync [0xAA#8] = some .fsmSyncInSeekFirst := rfl
theorem test_decode_other_first : decodeScan .seekFirstSync [0x55#8] = some (.fsmOtherInSeekFirst 0x55#8) := rfl
theorem test_decode_sync_second : decodeScan .seekSecondSync [0xAA#8] = some .fsmSyncInSeekSecond := rfl
theorem test_decode_other_second : decodeScan .seekSecondSync [0xAB#8] = some (.fsmOtherInSeekSecond 0xAB#8) := rfl
theorem test_decode_body_complete : decodeScan .awaitingBody (List.replicate 17 0#8) = some .fsmBodyComplete := by decide
theorem test_decode_body_incomplete : decodeScan .awaitingBody (List.replicate 16 0#8) = some .fsmBodyIncomplete := by decide
theorem test_decode_exhausted : decodeScan .seekSecondSync [] = none := rfl
theorem test_table_word_submit : decodeTableWord 16 0x1003 = some (.submit [0#8, 0#8, 0#8]) := by decide
theorem test_table_word_byte : decodeTableWord 8 0xAA = some .fsmSyncInSeekFirst := by decide

/-! ## SUBMIT (40_submit.md) -/

/-- V-SUB-6 and V-SUB-7: 70 bytes held, 6 fit and 7 do not. -/
theorem test_submit_free_space :
    (shown (exec (.submit (List.replicate 6 1#8)) (holding (List.replicate 70 0#8)))).map (fun x => (x.1.length, x.2.1)) =
      some (76, some .ok) ∧
    (shown (exec (.submit (List.replicate 7 1#8)) (holding (List.replicate 70 0#8)))).map (fun x => (x.1.length, x.2.1)) =
      some (70, some .queueFull) := by decide
/-- V-SUB-5: CAPACITY_EXCEEDED and not QUEUE_FULL. -/
theorem test_submit_capacity :
    (shown (exec (.submit (List.replicate 77 1#8)) (holding (List.replicate 70 0#8)))).map (fun x => (x.1.length, x.2.1)) =
      some (70, some .capacityExceeded) := by decide

/-! ## POLL (41_poll_fsm.md) -/

/-- V-POLL-9: a false sync loses the frame, only its last byte stays. -/
theorem test_poll_false_sync :
    shown (exec .poll (holding (0xAA#8 :: frameA))) = some ([0xE7#8], some .ok, none) := by decide
/-- V-POLL-11: garbage before a frame; V-POLL-8: a trailing lone 0xAA is kept. -/
theorem test_poll_frame_and_lone_sync :
    shown (exec .poll (holding (0xAA#8 :: 0x55#8 :: frameA))) = some ([], some .ok, some frameFA) ∧
    shown (exec .poll (holding [0x55#8, 0xAA#8])) = some ([0xAA#8], some .ok, none) := by decide

/-! ## LAST_FRAME (44_last_frame.md) -/

/-- V-LF-1: None after reset. -/
theorem test_last_frame_none : shown (exec .lastFrame State.reset) = some ([], some .ok, none) := by decide
/-- P1, step 3: the response bytes are `04` and the body of Scenario A. -/
theorem test_last_frame_bytes :
    ((after (exec .lastFrame { holding [] with lastFrame := some frameFA })).bind State.response).map responseBytes =
      some (0x04#8 :: frameA.drop 2) := by decide

/-! ## Rows of the sync-search machine (vectors V-FSM-1 to V-FSM-9) -/

/-- V-FSM-1. -/
theorem test_row_sync_first :
    scanShown (exec .fsmSyncInSeekFirst (scanning .seekFirstSync [0xAA#8] 0 0)) = some (1#2, some (1, 0)) := by decide
/-- V-FSM-2. -/
theorem test_row_other_first :
    scanShown (exec (.fsmOtherInSeekFirst 0x55#8) (scanning .seekFirstSync [0#8, 0#8, 0#8, 0x55#8] 3 3)) =
      some (0#2, some (4, 4)) := by decide
/-- V-FSM-4. -/
theorem test_row_sync_second :
    scanShown (exec .fsmSyncInSeekSecond (scanning .seekSecondSync [0xAA#8, 0xAA#8] 1 0)) = some (2#2, some (2, 0)) := by
  decide
/-- V-FSM-6. -/
theorem test_row_other_second :
    scanShown (exec (.fsmOtherInSeekSecond 0xAB#8) (scanning .seekSecondSync [1#8, 1#8, 1#8, 1#8, 0xAA#8, 0xAB#8] 5 4)) =
      some (0#2, some (6, 6)) := by decide
/-- V-FSM-7: the release count is 19, and the event is FA. -/
theorem test_row_body_complete :
    (after (exec .fsmBodyComplete (scanning .awaitingBody frameA 2 0))).map
      (fun t => (t.lastFrame, t.scan.map fun sc => (sc.rel, sc.ev, sc.done))) =
      some (some frameFA, some (19, some frameFA, true)) := by decide
/-- V-FSM-8. -/
theorem test_row_body_incomplete :
    scanShown (exec .fsmBodyIncomplete (scanning .awaitingBody (frameA.take 18) 2 0)) = some (2#2, some (2, 0)) := by decide
/-- A row whose byte is not there is refused by name (log entry 11). -/
theorem test_row_not_enabled :
    exec .fsmSyncInSeekFirst (scanning .seekFirstSync [0x55#8] 0 0) = .refused .transitionNotEnabled := rfl

/-! ## Reserved words (R72) -/

theorem test_reserved_op0 : exec (.reservedOp0 1#12) State.reset = .refused (.reservedCommandWord 0x0001#16) := rfl
theorem test_reserved_op4_7 : exec (.reservedOp4to7 1#14) State.reset = .refused (.reservedCommandWord 0x4001#16) := rfl
theorem test_reserved_op8_f : exec (.reservedOp8toF 1#15) State.reset = .refused (.reservedCommandWord 0x8001#16) := rfl
theorem test_reserved_poll_len : exec (.reservedPollLen 1#12) State.reset = .refused (.reservedCommandWord 0x2001#16) := rfl
theorem test_reserved_last_frame_len :
    exec (.reservedLastFrameLen 1#12) State.reset = .refused (.reservedCommandWord 0x3001#16) := rfl

/-! ## Checksum, unpacker, converter, assembler -/

/-- V-CK-4 and V-CK-5. -/
theorem test_checksum_wraps :
    checksumOk (List.replicate 16 0xFF#8 ++ [0xF0#8]) = true ∧ checksumOk (List.replicate 17 0xFF#8) = false := by decide
/-- V-UP-1, and the i16 corners of V-UP-2. -/
theorem test_unpack : unpack (frameA.drop 2) = frameFA ∧
    int16 (joinBytes 0x7F#8 0xFF#8) = 32767 ∧ int16 (joinBytes 0x80#8 0x00#8) = -32768 ∧
    int16 (joinBytes 0x01#8 0x00#8) = 256 := by decide
/-- L1-P: the exact values of Scenario A. -/
theorem test_pretty : (toPretty frameFA).pitch = -11 / 10 ∧ (toPretty frameFA).xAcc = -363826715 / 100000000 := by
  decide +kernel
/-- L1-P: and within the tolerance of the source's own value. -/
theorem test_pretty_tolerance :
    withinTolerance Config.exactReal (toPretty frameFA).zAcc (9581 / 1000) = true := by decide +kernel
/-- P4, step 3 and R76: one line of each kind, and a comment. -/
theorem test_assemble :
    assemble ['S', 'U', 'B', 'M', 'I', 'T', ' ', '0', 'a', ' ', 'F', 'F', ' ', ';', 'x', '\n', 'P', 'O', 'L', 'L', '\n',
      'F', 'E', 'E', 'D', ' ', '0', '1'] =
      some [.submit [0x0A#8, 0xFF#8], .poll, .submit [0x01#8], .poll] := by decide +kernel

/-! ## Steps and reset -/

/-- V-FSM-1 as the first step after reset. -/
theorem test_step_row : scanShown (step (State.reset.withFetchWord 8 0xAA)) = some (1#2, some (1, 0)) := by decide
/-- P1, step 4: POLL of an empty buffer as the first step after reset. -/
theorem test_step_poll : shown (step (State.reset.withFetchWord 16 0x2000)) = some ([], some .queueEmpty, none) := by decide
/-- Nothing issued, nothing done (log entry 2). -/
theorem test_step_idle : step State.reset = .next State.reset := rfl
/-- Bytes behind a complete command stay as the agent's next one (log entry 13). -/
theorem test_step_leftover :
    (after (step (asked State.reset .consumer 0 .normal [0x30#8, 0x00#8, 0x20#8, 0x00#8]))).map State.inputs =
      some [.request { agent := .consumer, port := 0, context := .normal, bytes := [0x20#8, 0x00#8] }] := by decide
/-- A command that ends early is refused by name (log entry 12). -/
theorem test_step_incomplete :
    step (asked State.reset .producer 0 .normal [0x10#8, 0x01#8]) = .refused .incompleteCommand := rfl
/-- A release beyond the view faults (R9; log entry 17); no run reaches this state. -/
theorem test_release_beyond_view :
    step (scanning .seekFirstSync [] 0 1) = .fault .releaseBeyondView := rfl

/-! ## Witnesses: the hypotheses of each statement can be met together -/

/-- The least capacity the spec admits, and one less. -/
theorem witness_ConstructionLeavesResetValues : 19 ≤ 19 ∧ construct 19 = .next (State.constructed 19) := ⟨by decide, rfl⟩
theorem witness_CapacityBelowFrameIsRefused :
    (State.constructed 18).qcap < 19 ∧ construct 18 = .refused .capacityBelowFrame ∧
    step (State.constructed 18) = .refused .capacityBelowFrame := ⟨by decide, rfl, rfl⟩
theorem witness_ResetDiscardsBufferAndLastFrame :
    let s := { holding frameA with lastFrame := some frameFA, inputs := [.reset 19] }
    unsupported s = none ∧ s.scan = none ∧ s.inputs = .reset 19 :: [] ∧ 19 ≤ 19 := by decide
theorem witness_ConstructionMeetsInvariant : construct 76 = .next State.reset := rfl

/-- A POLL's start meets the invariant where the state before it does. -/
theorem inv_scanning : (pollBegin (holding frameA)).Inv :=
  ⟨by decide, by decide, by decide, nofun,
    fun _ h => (Option.some.inj h) ▸ pollBegin_scanOk (holding frameA)⟩
theorem inv_holding : (holding frameA).Inv :=
  ⟨by decide, by decide, by decide, fun _ => rfl, nofun⟩
theorem witness_EveryStepKeepsInvariant :
    (pollBegin (holding frameA)).Inv ∧ (after (step (pollBegin (holding frameA)))).isSome = true :=
  ⟨inv_scanning, by decide⟩

theorem witness_StepRunsDecodedCommand :
    let r : Request := { agent := .consumer, port := 0, context := .normal, bytes := [0x20#8, 0x00#8] }
    let s := { holding frameA with inputs := [.request r] }
    unsupported s = none ∧ s.scan = none ∧ s.inputs = .request r :: [] ∧ refuseRequest r = none ∧
      decodeCommand r.bytes = .ok (.poll, []) ∧ refuseOperation r .poll = none :=
  ⟨by decide, rfl, rfl, by decide, rfl, by decide⟩
theorem witness_StepRunsDecodedRow :
    let s := scanning .seekFirstSync [0xAA#8] 0 0
    unsupported s = none ∧ s.scan.map Scan.done = some false ∧
      DecoderState.ofBits s.decoderState = some .seekFirstSync ∧
      (s.scan.map fun sc => decodeScan .seekFirstSync (scanLeft sc)) = some (some .fsmSyncInSeekFirst) := by decide
/-- Both ways a loop is left: the view exhausted, and R127's exit. -/
theorem witness_StepEndsPoll :
    (let s := scanning .seekSecondSync [0xAA#8] 1 0
     unsupported s = none ∧ (s.scan.map fun sc => decide (sc.rel ≤ sc.view.length)) = some true ∧
      (s.scan.map fun sc => decodeScan .seekSecondSync (scanLeft sc)) = some none) ∧
    (let s := { scanning .awaitingBody [0xAA#8, 0xAA#8] 2 0 with
       scan := some { view := [0xAA#8, 0xAA#8], i := 2, rel := 0, ev := none, done := true } }
     unsupported s = none ∧ s.scan.map Scan.done = some true) := by decide
/-- A witness for each refusal of the statement. -/
theorem witness_ForbiddenIssuesAreRefused :
    (step { State.reset with decoderState := 3#2 } = .refused .decoderStateUnused) ∧
    step (asked State.reset .producer 1 .normal [0x10#8, 0x00#8]) = .refused .secondAgent ∧
    step (asked State.reset .consumer 0 .overlapping [0x20#8, 0x00#8]) = .refused .overlappingOperation ∧
    step (asked State.reset .consumer 0 .inFrameHandler [0x20#8, 0x00#8]) = .refused .reentrantOperation ∧
    step (asked State.reset .producer 0 .inFrameHandler [0x10#8, 0x00#8]) = .refused .reentrantOperation ∧
    step (asked State.reset .consumer 0 .normal [0x10#8, 0x00#8]) = .refused .wrongAgent ∧
    step (asked State.reset .producer 0 .normal [0x20#8, 0x00#8]) = .refused .wrongAgent ∧
    step (asked State.reset .producer 0 .normal [0x30#8, 0x00#8]) = .refused .wrongAgent ∧
    step (asked State.reset .producer 0 .inFrameHandler [0x30#8, 0x00#8]) = .refused .wrongAgent :=
  ⟨rfl, rfl, rfl, rfl, rfl, rfl, rfl, rfl, rfl⟩
/-- LAST_FRAME from within the handling of a frame event is not barred (R202). -/
theorem test_last_frame_in_handler :
    shown (step (asked { holding [] with lastFrame := some frameFA } .consumer 0 .inFrameHandler [0x30#8, 0x00#8])) =
      some ([], some .ok, some frameFA) := by decide

theorem witness_SubmitOverCapacity : (holding []).qcap < (List.replicate 77 0#8).length := by decide
/-- 7 bytes do not fit behind 70, and fit exactly behind 69. -/
theorem witness_SubmitBeyondFreeSpace :
    let s := holding (List.replicate 70 0#8)
    let u := holding (List.replicate 69 0#8)
    (List.replicate 7 0#8).length ≤ s.qcap ∧ s.qcap - s.q.length < (List.replicate 7 0#8).length ∧
      u.qcap = s.qcap ∧ (List.replicate 7 0#8).length ≤ u.qcap - u.q.length := by decide
theorem witness_SubmitAppendsPayload :
    let s := holding (List.replicate 70 0#8)
    s.q.length ≤ s.qcap ∧ (List.replicate 6 0#8).length ≤ s.qcap - s.q.length := by decide
/-- A witness for each of R106's cases, at its boundary. -/
theorem witness_SubmitBoundaries :
    ((List.replicate 76 0#8).length = (holding []).qcap ∧ (holding []).q = []) ∧
    ((List.replicate 76 0#8).length = (holding [0#8]).qcap ∧ 1 ≤ (holding [0#8]).q.length) ∧
    ((List.replicate 77 0#8).length = (holding []).qcap + 1) ∧
    ((List.replicate 6 0#8).length = (holding (List.replicate 70 0#8)).qcap - (List.replicate 70 0#8).length) ∧
    ((List.replicate 7 0#8).length = (holding (List.replicate 70 0#8)).qcap - (List.replicate 70 0#8).length + 1 ∧
      (List.replicate 7 0#8).length ≤ (holding (List.replicate 70 0#8)).qcap) := by decide
theorem witness_CapacityExceededIsPermanent :
    (shown (exec (.submit (List.replicate 77 0#8)) (holding []))).map (fun x => x.2.1) = some (some .capacityExceeded) ∧
    (holding frameA).qcap = (holding []).qcap := by decide
theorem witness_SubmitFrame : (after (exec (.submit [1#8]) (holding frameA))).isSome = true := by decide
theorem witness_FailedOperationChangesNothing :
    isOperation .poll = true ∧ shown (exec .poll (holding [])) = some ([], some .queueEmpty, none) := by decide

theorem witness_PollOfEmptyBuffer : (holding []).scan = none ∧ (holding []).q = [] := ⟨rfl, rfl⟩

/-- Neither `55` nor `55 AA` holds a whole sync marker. -/
theorem noSync_55 : NoSync [0x55#8] := by
  intro k h
  have := h.length
  simp at this
theorem noSync_55_AA : NoSync [0x55#8, 0xAA#8] := by
  intro k h
  have hl := h.length
  have hk : k = 0 := by simp at hl; omega
  subst hk
  exact absurd h.1 (by decide)
/-- Both rows of the table: with and without a trailing lone 0xAA. -/
theorem witness_PollWithoutSync :
    ((holding [0x55#8]).scan = none ∧ (holding [0x55#8]).q ≠ [] ∧ NoSync (holding [0x55#8]).q ∧
      [0x55#8].getLast? ≠ some Config.syncByte) ∧
    ((holding [0x55#8, 0xAA#8]).scan = none ∧ (holding [0x55#8, 0xAA#8]).q ≠ [] ∧ NoSync (holding [0x55#8, 0xAA#8]).q ∧
      [0x55#8, 0xAA#8].getLast? = some Config.syncByte) :=
  ⟨⟨rfl, by decide, noSync_55, by decide⟩, rfl, by decide, noSync_55_AA, by decide⟩

/-- A list that begins with a marker. -/
theorem firstSync_zero (v : List Byte) : FirstSync (0xAA#8 :: 0xAA#8 :: v) 0 :=
  ⟨⟨rfl, rfl⟩, fun _ hj => absurd hj (Nat.not_lt_zero _)⟩
/-- The longest incomplete candidate: 18 bytes. -/
theorem witness_PollOfIncompleteCandidate :
    (holding (frameA.take 18)).scan = none ∧ FirstSync (holding (frameA.take 18)).q 0 ∧
      (holding (frameA.take 18)).q.length < 0 + 19 := ⟨rfl, firstSync_zero _, by decide⟩
/-- The shortest view with a candidate: 19 bytes. -/
theorem witness_PollAcceptsCandidate :
    (holding frameA).scan = none ∧ FirstSync (holding frameA).q 0 ∧ 0 + 19 ≤ (holding frameA).q.length ∧
      checksumOk (bodyAfter (holding frameA).q 0) = true := ⟨rfl, firstSync_zero _, by decide, by decide⟩
/-- Scenario C's checksum. -/
theorem witness_PollRejectsCandidate :
    let q := frameA.take 18 ++ [0xE9#8]
    (holding q).scan = none ∧ FirstSync (holding q).q 0 ∧ 0 + 19 ≤ (holding q).q.length ∧
      checksumOk (bodyAfter (holding q).q 0) = false := ⟨rfl, firstSync_zero _, by decide, by decide⟩
theorem witness_RowByRowScanRefinesPoll :
    19 ≤ (holding frameA).qcap ∧ (holding frameA).scan = none ∧ (holding frameA).q ≠ [] := by decide
theorem witness_PollAlwaysCompletes :
    (holding frameA).scan = none ∧ (holding frameA).decoderState = DecoderState.seekFirstSync.bits := ⟨rfl, rfl⟩
/-- A next state, with each clause's case: an incomplete candidate, a trailing lone 0xAA, a finished candidate. -/
theorem witness_PollLosesNoCandidate :
    ((after (exec .poll (holding (frameA.take 18)))).isSome = true ∧ FirstSync (frameA.take 18) 0 ∧
      (frameA.take 18).length < 0 + 19) ∧
    ((after (exec .poll (holding [0x55#8, 0xAA#8]))).isSome = true ∧ NoSync [0x55#8, 0xAA#8] ∧
      [0x55#8, 0xAA#8].getLast? = some Config.syncByte) ∧
    ((after (exec .poll (holding frameA))).map (fun t => t.q) = some (frameA.drop 19) ∧ FirstSync frameA 0 ∧ 0 < 19) :=
  ⟨⟨by decide, firstSync_zero _, by decide⟩, ⟨by decide, noSync_55_AA, by decide⟩, by decide, firstSync_zero _, by decide⟩
theorem witness_PollDependsOnBufferAlone :
    let u := { holding frameA with lastFrame := some frameFA, qcap := 19 }
    (holding frameA).q = u.q ∧ (after (exec .poll (holding frameA))).isSome = true ∧
      (after (exec .poll u)).isSome = true := by decide
theorem witness_PollFrame : (after (exec .poll (holding frameA))).isSome = true := by decide
/-- `AA AA DE` and the empty buffer: no progress. -/
theorem witness_PollWithoutProgressRepeats :
    (after (exec .poll (holding [0xAA#8, 0xAA#8, 0xDE#8]))).map State.q = some (holding [0xAA#8, 0xAA#8, 0xDE#8]).q ∧
    (after (exec .poll (holding []))).map State.q = some (holding []).q := by decide
/-- The most bytes retained, 18, and a payload of exactly `QCAP - 18`. -/
theorem witness_RetainedBytesLeaveRoom :
    (after (exec .poll (holding (frameA.take 18)))).map State.q = some (holding (frameA.take 18)).q ∧
      (List.replicate 58 0#8).length ≤ (holding (frameA.take 18)).qcap - 18 := by decide
/-- A full buffer of 18 bytes, with a payload within and one beyond the capacity. -/
theorem witness_SmallBufferLivelocks :
    let s := { State.constructed 18 with q := frameA.take 18 }
    s.qcap ≤ 18 ∧ s.scan = none ∧ s.decoderState = DecoderState.seekFirstSync.bits ∧ s.q.length ≤ s.qcap ∧
      SyncAt s.q 0 ∧ s.q.length = s.qcap ∧ [0#8] ≠ [] ∧ [0#8].length ≤ s.qcap ∧
      s.qcap < (List.replicate 19 0#8).length :=
  ⟨by decide, rfl, rfl, by decide, ⟨rfl, rfl⟩, by decide, by decide, by decide, by decide⟩
/-- V-POLL-9. -/
theorem witness_FalseSyncLosesFrame :
    (holding (0xAA#8 :: frameA)).scan = none ∧
      (holding (0xAA#8 :: frameA)).q = Config.syncByte :: (wireFrame frameFA ++ []) ∧
      checksumOk (Config.syncByte :: (encodeFrame frameFA).take 16) = false := by decide
/-- FA, and FA with another `csum`. -/
theorem witness_WireFrameRoundTrip :
    ((holding (frameA ++ [0x11#8])).scan = none ∧ (holding (frameA ++ [0x11#8])).q = wireFrame frameFA ++ [0x11#8] ∧
      frameOk frameFA = true) ∧
    (let f := { frameFA with csum := 0xE9#8 }
     (holding (wireFrame f)).scan = none ∧ (holding (wireFrame f)).q = wireFrame f ++ [] ∧ frameOk f = false) := by decide
/-- `AA AA`, in one SUBMIT and byte by byte with a POLL after each. -/
theorem witness_FragmentationInvariance :
    let one : List Instr := [.submit [0xAA#8, 0xAA#8], .poll]
    let two : List Instr := feed [0xAA#8, 0xAA#8]
    (holding []).scan = none ∧ one.all isFeedOp = true ∧ two.all isFeedOp = true ∧ streamOf one = streamOf two ∧
      (runAccepted one (holding [])).map (fun x => (x.1.q.length, x.2)) = some (2, []) ∧
      (runAccepted two (holding [])).map (fun x => (x.1.q.length, x.2)) = some (2, []) := by decide
/-- After the first row of a POLL over Scenario A's frame: an accepted SUBMIT and a refused one. -/
theorem witness_ConcurrentSubmitIsSerial :
    (holding frameA).Inv ∧ (holding frameA).scan = none ∧ (holding frameA).q ≠ [] ∧
    (after (runSteps 1 (pollBegin (holding frameA)))).map (fun m => m.scan.isSome) = some true ∧
    (after (runSteps 1 (pollBegin (holding frameA)))).bind (fun m => shown (exec (.submit [1#8]) m)) =
      some (frameA ++ [1#8], some .ok, none) ∧
    (after (runSteps 1 (pollBegin (holding frameA)))).bind (fun m => shown (exec (.submit (List.replicate 58 1#8)) m)) =
      some (frameA, some .queueFull, none) :=
  ⟨inv_holding, rfl, by decide, by decide, by decide, by decide⟩

theorem witness_LastFrameReadsLatest :
    (holding frameA).scan = none ∧ (scanning .seekFirstSync [0#8] 0 0).scan ≠ none := by decide
theorem witness_LastFrameReturnsEvent :
    (after (exec .poll (holding frameA))).map (fun t => t.response.map Response.frame) = some (some (some frameFA)) := by
  decide
theorem witness_OnlyAcceptedCandidateWritesLastFrame :
    (after (exec .poll (holding frameA))).map State.lastFrame = some (some frameFA) ∧
    (after (exec .fsmBodyComplete (scanning .awaitingBody frameA 2 0))).map State.lastFrame = some (some frameFA) ∧
    (holding frameA).lastFrame ≠ some frameFA ∧
    (∃ sc, (scanning .awaitingBody frameA 2 0).scan = some sc ∧ ScanAt .awaitingBody sc) :=
  ⟨by decide, by decide, by decide, _, rfl, rfl, rfl, rfl⟩

/-- A running scan, for the row statements. -/
theorem witness_FirstSyncByteRow :
    ∃ sc, (scanning .seekFirstSync [0xAA#8] 0 0).scan = some sc ∧ sc.done = false ∧
      (scanning .seekFirstSync [0xAA#8] 0 0).decoderState = DecoderState.seekFirstSync.bits ∧ ScanAt .seekFirstSync sc ∧
      sc.view[sc.i]? = some 0xAA#8 := ⟨_, rfl, rfl, rfl, rfl, rfl⟩
theorem witness_GarbageByteRow :
    ∃ sc, (scanning .seekFirstSync [0x55#8] 0 0).scan = some sc ∧ sc.done = false ∧
      (scanning .seekFirstSync [0x55#8] 0 0).decoderState = DecoderState.seekFirstSync.bits ∧
      sc.view[sc.i]? = some 0x55#8 ∧ 0x55#8 ≠ 0xAA#8 := ⟨_, rfl, rfl, rfl, rfl, by decide⟩
theorem witness_SecondSyncByteRow :
    ∃ sc, (scanning .seekSecondSync [0xAA#8, 0xAA#8] 1 0).scan = some sc ∧ sc.done = false ∧
      (scanning .seekSecondSync [0xAA#8, 0xAA#8] 1 0).decoderState = DecoderState.seekSecondSync.bits ∧
      ScanAt .seekSecondSync sc ∧ sc.view[sc.i]? = some 0xAA#8 := ⟨_, rfl, rfl, rfl, ⟨rfl, rfl⟩, rfl⟩
theorem witness_FailedSecondSyncRow :
    ∃ sc, (scanning .seekSecondSync [0xAA#8, 0xBB#8] 1 0).scan = some sc ∧ sc.done = false ∧
      (scanning .seekSecondSync [0xAA#8, 0xBB#8] 1 0).decoderState = DecoderState.seekSecondSync.bits ∧
      sc.view[sc.i]? = some 0xBB#8 ∧ 0xBB#8 ≠ 0xAA#8 := ⟨_, rfl, rfl, rfl, rfl, by decide⟩
/-- 16 bytes left. -/
theorem witness_IncompleteBodyRow :
    ∃ sc, (scanning .awaitingBody (frameA.take 18) 2 0).scan = some sc ∧ sc.done = false ∧
      (scanning .awaitingBody (frameA.take 18) 2 0).decoderState = DecoderState.awaitingBody.bits ∧
      ScanAt .awaitingBody sc ∧ sc.view.length - sc.i < 17 := ⟨_, rfl, rfl, rfl, ⟨rfl, rfl, rfl⟩, by decide⟩
/-- 17 bytes left, with a matching and with a failing checksum. -/
theorem witness_CompleteBodyRow :
    (∃ sc, (scanning .awaitingBody frameA 2 0).scan = some sc ∧ sc.done = false ∧
      (scanning .awaitingBody frameA 2 0).decoderState = DecoderState.awaitingBody.bits ∧
      17 ≤ sc.view.length - sc.i ∧ checksumOk ((sc.view.drop sc.i).take 17) = true) ∧
    (∃ sc, (scanning .awaitingBody (frameA.take 18 ++ [0xE9#8]) 2 0).scan = some sc ∧ sc.done = false ∧
      (scanning .awaitingBody (frameA.take 18 ++ [0xE9#8]) 2 0).decoderState = DecoderState.awaitingBody.bits ∧
      17 ≤ sc.view.length - sc.i ∧ checksumOk ((sc.view.drop sc.i).take 17) = false) :=
  ⟨⟨_, rfl, rfl, rfl, by decide, by decide⟩, _, rfl, rfl, rfl, by decide, by decide⟩
/-- Each of the six rows runs somewhere. -/
theorem witness_RowFrame :
    isRow .fsmSyncInSeekFirst = true ∧ isRow (.fsmOtherInSeekFirst 0x55#8) = true ∧ isRow .fsmSyncInSeekSecond = true ∧
    isRow (.fsmOtherInSeekSecond 0xBB#8) = true ∧ isRow .fsmBodyComplete = true ∧ isRow .fsmBodyIncomplete = true ∧
    (after (exec .fsmSyncInSeekFirst (scanning .seekFirstSync [0xAA#8] 0 0))).isSome = true ∧
    (after (exec (.fsmOtherInSeekFirst 0x55#8) (scanning .seekFirstSync [0x55#8] 0 0))).isSome = true ∧
    (after (exec .fsmSyncInSeekSecond (scanning .seekSecondSync [0xAA#8, 0xAA#8] 1 0))).isSome = true ∧
    (after (exec (.fsmOtherInSeekSecond 0xBB#8) (scanning .seekSecondSync [0xAA#8, 0xBB#8] 1 0))).isSome = true ∧
    (after (exec .fsmBodyComplete (scanning .awaitingBody frameA 2 0))).isSome = true ∧
    (after (exec .fsmBodyIncomplete (scanning .awaitingBody [0xAA#8, 0xAA#8] 2 0))).isSome = true := by decide
theorem witness_RowRunsWhereDecoded :
    isRow .fsmSyncInSeekFirst = true ∧
    (after (exec .fsmSyncInSeekFirst (scanning .seekFirstSync [0xAA#8] 0 0))).isSome = true ∧
    exec .fsmSyncInSeekFirst (scanning .seekSecondSync [0xAA#8] 0 0) = .refused .transitionNotEnabled :=
  ⟨rfl, by decide, rfl⟩
theorem witness_ScanInvariantAtEveryPass :
    (scanLoop 2 (pollBegin (holding frameA))).scan.map Scan.done = some false := by decide

theorem witness_ChecksumIsSumMod256 : (frameA.drop 2).length = 17 := by decide
/-- The first, the last summed and the checksum byte. -/
theorem witness_SingleByteChangeIsCaught :
    (frameA.drop 2).length = 17 ∧ checksumOk (frameA.drop 2) = true ∧ 0 < 17 ∧ 15 < 17 ∧ 16 < 17 ∧
    bodyByte (frameA.drop 2) 0 ≠ 0#8 ∧ bodyByte (frameA.drop 2) 15 ≠ 1#8 ∧ bodyByte (frameA.drop 2) 16 ≠ 0xE9#8 := by
  decide
/-- V-CK-8: bytes 0 and 1 swapped; and two changes. -/
theorem witness_ReorderingIsNotCaught :
    (0xDE#8 :: 0x01#8 :: List.replicate 14 0#8).length = 16 ∧
    (0xDE#8 :: 0x01#8 :: List.replicate 14 0#8).Perm (0x01#8 :: 0xDE#8 :: List.replicate 14 0#8) ∧
    (frameA.drop 2).length = 17 ∧ 0 < 16 ∧ 15 < 16 ∧ (0 : Nat) ≠ 15 :=
  ⟨by decide, List.Perm.swap _ _ _, by decide, by decide, by decide, by decide⟩
theorem witness_UnpackEncodeRoundTrip : (frameA.drop 2).length = 17 := by decide
/-- Both signs, at their boundary: `FF 7F` and `00 80`. -/
theorem witness_FieldsAreLittleEndianTwosComplement :
    (bodyWord [0xFF#8, 0x7F#8] 0).toNat ≤ 0x7FFF ∧ 0x7FFF < (bodyWord [0x00#8, 0x80#8] 0).toNat := by decide

theorem witness_DecodeOfEncodedCommand :
    WellFormed (.submit [0x55#8]) = true ∧ (cmdWord (.submit [0x55#8])).isSome = true := by decide
theorem witness_EncodeOfDecodedCommand :
    decodeCommand [0x10#8, 0x01#8, 0x55#8, 0x20#8] = .ok (.submit [0x55#8], [0x20#8]) := rfl
/-- A seek row, and each AwaitingBody row with 17 and with 16 bytes left. -/
theorem witness_DecodeOfEncodedRow :
    WellFormed (.fsmOtherInSeekFirst 0x55#8) = true ∧ rowState (.fsmOtherInSeekFirst 0x55#8) = some .seekFirstSync ∧
    (rowByte (.fsmOtherInSeekFirst 0x55#8)).isSome = true ∧
    WellFormed .fsmBodyComplete = true ∧ rowState .fsmBodyComplete = some .awaitingBody ∧
    17 ≤ (List.replicate 17 0#8).length ∧
    WellFormed .fsmBodyIncomplete = true ∧ rowState .fsmBodyIncomplete = some .awaitingBody ∧
    (List.replicate 16 0#8).length < 17 := by decide
theorem witness_DecodedWordMatchesTableRow : decodeWord 0x8001#16 [] = .ok (.reservedOp8toF 1#15, []) := rfl
/-- The edges of the reserved ranges, and one word of each operation. -/
theorem witness_ReservedWordsSpellNoOperation :
    reservedWord 0x0FFF#16 = true ∧ reservedWord 0x2001#16 = true ∧ reservedWord 0x3FFF#16 = true ∧
    reservedWord 0x4000#16 = true ∧ reservedWord 0xFFFF#16 = true ∧
    reservedWord 0x1001#16 = false ∧ (cmdLen 0x1001#16).toNat ≤ [0x55#8].length ∧
    reservedWord 0x2000#16 = false ∧ (cmdLen 0x2000#16).toNat ≤ ([] : List Byte).length ∧
    reservedWord 0x3000#16 = false := by decide
/-- A response with a frame and one without; an operation's next state. -/
theorem witness_ResponseEncoding :
    (Response.mk .consumer .queueEmpty none).frame = none ∧
    (Response.mk .consumer .ok (some frameFA)).frame = some frameFA ∧
    isOperation .lastFrame = true ∧ (after (exec .lastFrame (holding []))).isSome = true ∧
    (after (exec (.submit []) (holding []))).isSome = true ∧ (after (exec .poll (holding []))).isSome = true := by decide

end Sys2Proof.Tests
end

namespace Sys2Proof.Machine

/-! ## What a step finds while a POLL is in progress (R7, R122) -/

/-- In a supported state, a step that finds an instruction to run is `exec` of it. -/
theorem step_of_fetch_run {s t : State} {i : Instr} (hs : unsupported s = none) (hf : fetch s = .run i t) :
    step s = exec i t := by
  simp only [step, hs, hf]

/-- A POLL in progress comes before anything that has been issued (log entry 5). -/
theorem fetch_of_scan {s : State} {sc : Scan} (h : s.scan = some sc) : fetch s = fetchRow s sc := by
  simp only [fetch, h]

/-- While the loop is running, what is found is the row that the scan state and the bytes left decode to, and the row
takes nothing from the state before it runs. -/
theorem fetchRow_of_decodeScan {s : State} {sc : Scan} {d : DecoderState} {i : Instr} (hdone : sc.done = false)
    (hd : DecoderState.ofBits s.decoderState = some d) (hi : decodeScan d (scanLeft sc) = some i) :
    fetchRow s sc = .run i s := by
  simp only [fetchRow, hdone, hd, hi, Bool.false_eq_true, if_false]

/-- Settles O7: what a step finds is the decoded row on the same state, and a step runs what it finds. -/
theorem stepRunsDecodedRow : Obligations.StepRunsDecodedRow := by
  intro s sc d i hs hscan hdone hd hi
  have hfetch : fetch s = .run i s := (fetch_of_scan hscan).trans (fetchRow_of_decodeScan hdone hd hi)
  exact step_of_fetch_run hs hfetch

end Sys2Proof.Machine

namespace Sys2Proof.Machine

/-! ## What an instruction and a step that complete have done

One inversion lemma for each: a next state comes from one of the cases it lists. -/

/-- POLL completes between operations only: on an empty buffer it changes nothing but the response (R121), else it is the
end of the POLL whose loop has run (R122). -/
theorem execPoll_next {s t : State} (h : execPoll s = .next t) :
    s.scan = none ∧ ((s.q = [] ∧ t = respond s .consumer .queueEmpty none) ∨
      ∃ sc, (scanLoop (s.q.length + 1) (pollBegin s)).scan = some sc ∧
        pollEnd (scanLoop (s.q.length + 1) (pollBegin s)) sc = .next t) := by
  unfold execPoll at h
  split at h
  · cases h
  · refine ⟨‹_›, ?_⟩
    split at h
    · cases h; exact .inl ⟨‹_›, rfl⟩
    · unfold pollScan at h
      dsimp only at h
      split at h
      · exact .inr ⟨_, ‹_›, h⟩
      · cases h

/-- LAST_FRAME completes between operations only, with a response (R200). -/
theorem execLastFrame_next {s t : State} (h : execLastFrame s = .next t) :
    s.scan = none ∧ t = respond s .consumer .ok s.lastFrame := by
  unfold execLastFrame at h
  split at h
  · cases h
  · cases h; exact ⟨‹_›, rfl⟩

/-- Only the three operations and the six rows complete; a reserved word is refused (R72). -/
theorem exec_next_cases {i : Instr} {s t : State} (h : exec i s = .next t) :
    (∃ payload, i = .submit payload ∧ execSubmit payload s = .next t) ∨
    (i = .poll ∧ execPoll s = .next t) ∨
    (i = .lastFrame ∧ execLastFrame s = .next t) ∨
    isRow i = true := by
  cases i with
  | submit payload => exact .inl ⟨payload, rfl, h⟩
  | poll => exact .inr (.inl ⟨rfl, h⟩)
  | lastFrame => exact .inr (.inr (.inl ⟨rfl, h⟩))
  | reservedOp0 | reservedOp4to7 | reservedOp8toF | reservedPollLen | reservedLastFrameLen => cases h
  | fsmSyncInSeekFirst | fsmOtherInSeekFirst | fsmSyncInSeekSecond | fsmOtherInSeekSecond | fsmBodyComplete
  | fsmBodyIncomplete => exact .inr (.inr (.inr rfl))

/-- A row that completes consumes a byte (R123 to R126), leaves an incomplete candidate (R127) or takes a complete one, and
only FSM_BODY_COMPLETE does the last (R128). -/
theorem exec_row_next_cases {i : Instr} {s t : State} (hi : isRow i = true) (h : exec i s = .next t) :
    ∃ sc, s.scan = some sc ∧
      ((i ≠ .fsmBodyComplete ∧ ((∃ d n, t = consumeByte s sc d n) ∨ t = leaveIncomplete s sc)) ∨
        (i = .fsmBodyComplete ∧ s.decoderState = DecoderState.awaitingBody.bits ∧ 17 ≤ (scanLeft sc).length ∧
          t = takeCandidate s sc)) := by
  cases i with
  | fsmSyncInSeekFirst =>
    obtain ⟨sc, hs, -, -, -, rfl⟩ := (execFsmSyncInSeekFirst_next s t).mp h
    exact ⟨sc, hs, .inl ⟨nofun, .inl ⟨_, _, rfl⟩⟩⟩
  | fsmOtherInSeekFirst b =>
    obtain ⟨sc, hs, -, -, -, rfl⟩ := (execFsmOtherInSeekFirst_next b s t).mp h
    exact ⟨sc, hs, .inl ⟨nofun, .inl ⟨_, _, rfl⟩⟩⟩
  | fsmSyncInSeekSecond =>
    obtain ⟨sc, hs, -, -, -, rfl⟩ := (execFsmSyncInSeekSecond_next s t).mp h
    exact ⟨sc, hs, .inl ⟨nofun, .inl ⟨_, _, rfl⟩⟩⟩
  | fsmOtherInSeekSecond b =>
    obtain ⟨sc, hs, -, -, -, rfl⟩ := (execFsmOtherInSeekSecond_next b s t).mp h
    exact ⟨sc, hs, .inl ⟨nofun, .inl ⟨_, _, rfl⟩⟩⟩
  | fsmBodyComplete =>
    obtain ⟨sc, hs, -, hd, hl, rfl⟩ := (execFsmBodyComplete_next s t).mp h
    exact ⟨sc, hs, .inr ⟨rfl, hd, hl, rfl⟩⟩
  | fsmBodyIncomplete =>
    obtain ⟨sc, hs, -, -, -, rfl⟩ := (execFsmBodyIncomplete_next s t).mp h
    exact ⟨sc, hs, .inl ⟨nofun, .inr rfl⟩⟩
  | _ => simp [isRow, rowState] at hi

/-- What an instruction to run is fetched with: the same state but for the inputs. -/
theorem fetch_run {s u : State} {i : Instr} (h : fetch s = .run i u) : ∃ l, u = { s with inputs := l } := by
  unfold fetch at h
  split at h
  · unfold fetchRow at h
    repeat' split at h
    all_goals cases h
    exact ⟨s.inputs, rfl⟩
  · unfold fetchInput at h
    split at h
    · cases h
    · cases h
    · unfold fetchRequest at h
      repeat' split at h
      all_goals cases h
      exact ⟨_, rfl⟩

/-- A reset that completes is a construction with an admitted capacity, the inputs behind it kept (R272). -/
theorem resetBlock_next {t : State} {qcap : Nat} {rest : List Input} (h : resetBlock qcap rest = .next t) :
    19 ≤ qcap ∧ t = { State.constructed qcap with inputs := rest } := by
  unfold resetBlock at h
  obtain ⟨hq, hc⟩ | ⟨-, hc⟩ := construct_cases qcap
  · rw [hc] at h; cases h; exact ⟨hq, rfl⟩
  · rw [hc] at h; cases h

/-- A step that completes runs an instruction on the same state but for the inputs, ends the POLL in progress, constructs the
block anew, or is idle. -/
theorem step_next_cases {s t : State} (h : step s = .next t) :
    (∃ i l, exec i { s with inputs := l } = .next t) ∨ (∃ sc, pollEnd s sc = .next t) ∨
    (∃ qcap rest, 19 ≤ qcap ∧ t = { State.constructed qcap with inputs := rest }) ∨ t = s := by
  unfold step at h
  split at h
  · cases h
  · split at h
    · rename_i i u hf
      obtain ⟨l, rfl⟩ := fetch_run hf
      exact .inl ⟨i, l, h⟩
    · exact .inr (.inl ⟨_, h⟩)
    · exact .inr (.inr (.inl ⟨_, _, resetBlock_next h⟩))
    · cases h; exact .inr (.inr (.inr rfl))
    · cases h

/-! ## Unpacked bodies -/

/-- Encoding an unpacked body lists its 17 bytes in order (R66, R180). -/
theorem encodeFrame_unpack_eq_map (body : List Byte) :
    encodeFrame (unpack body) = (List.range 17).map (bodyByte body) := by
  simp [encodeFrame, unpack, bodyWord, List.range_succ]

/-- Unpacking a 17-byte body loses nothing (R66, R186). -/
theorem encodeFrame_unpack {body : List Byte} (h : body.length = 17) : encodeFrame (unpack body) = body := by
  rw [encodeFrame_unpack_eq_map]
  refine List.ext_getElem (by simp [h]) fun k _ hk => ?_
  simp [bodyByte, hk]

/-- A frame unpacked from a body that passes the checksum meets the frame invariant (R23). -/
theorem frameOk_unpack {body : List Byte} (h : body.length = 17) (hc : checksumOk body = true) :
    frameOk (unpack body) = true := by
  rw [frameOk, encodeFrame_unpack h, hc]

/-! ## What keeps the invariant of the block (R28, R133) -/

/-- The invariant between two operations. -/
theorem inv_of_scan_none {s : State} (hq : 19 ≤ s.qcap) (hlen : s.q.length ≤ s.qcap)
    (hf : s.lastFrame.all frameOk = true) (hd : s.decoderState = DecoderState.seekFirstSync.bits)
    (hs : s.scan = none) : s.Inv :=
  ⟨hq, hlen, hf, fun _ => hd, fun _ h => absurd (hs.symm.trans h) nofun⟩

/-- The invariant while a POLL is in progress. -/
theorem inv_of_scan_some {s : State} {sc : Scan} (hq : 19 ≤ s.qcap) (hlen : s.q.length ≤ s.qcap)
    (hf : s.lastFrame.all frameOk = true) (hs : s.scan = some sc) (ho : ScanOk s sc) : s.Inv :=
  ⟨hq, hlen, hf, fun h => absurd (hs.symm.trans h) nofun, fun _ h => Option.some.inj (hs.symm.trans h) ▸ ho⟩

/-- The invariant does not read the inputs. -/
theorem inv_inputs_iff (s : State) (l : List Input) : State.Inv { s with inputs := l } ↔ s.Inv := Iff.rfl

/-- The invariant does not read the response. -/
theorem inv_respond_iff (s : State) (a : Agent) (st : Status) (f : Option RawFrame) :
    (respond s a st f).Inv ↔ s.Inv := Iff.rfl

/-- A constructed block meets the invariant. -/
theorem constructed_inv {qcap : Nat} (h : 19 ≤ qcap) : (State.constructed qcap).Inv :=
  inv_of_scan_none h (Nat.zero_le _) rfl rfl rfl

/-- Appending within the free space keeps the invariant, behind the view of a POLL in progress too (R53, R103). -/
theorem queueWrite_inv {s : State} {payload : List Byte} (h : s.Inv)
    (hfree : payload.length ≤ s.qcap - s.q.length) : (queueWrite s payload).Inv := by
  obtain ⟨hq, hlen, hf, hd, hscan⟩ := h
  refine ⟨hq, by simp; omega, hf, hd, fun sc hs => ?_⟩
  obtain ⟨hview, hrest⟩ := hscan sc hs
  exact ⟨hview.trans (List.prefix_append _ _), hrest⟩

/-- The start of a POLL keeps the invariant (R121). -/
theorem pollBegin_inv {s : State} (h : s.Inv) : (pollBegin s).Inv := by
  obtain ⟨hq, hlen, hf, -, -⟩ := h
  exact inv_of_scan_some hq hlen hf rfl (pollBegin_scanOk s)

/-- A pass of R122's loop keeps the invariant. -/
theorem scanPass_inv {s t : State} {sc : Scan} (h : s.Inv) (hs : s.scan = some sc) (hp : scanPass s sc = some t) :
    t.Inv := by
  obtain ⟨hq, hlen, hf, -, hscan⟩ := h
  obtain ⟨htq, htqcap, -, -⟩ := scanPass_fields hp
  obtain ⟨sc', hs', ho', -⟩ := scanPass_scanOk (hscan sc hs) hp
  have htf : t.lastFrame.all frameOk = true := by
    obtain heq | ⟨body, hbody, hc, -, heq⟩ := scanPass_lastFrame hp
    · rw [heq]; exact hf
    · rw [heq]; exact frameOk_unpack hbody hc
  exact inv_of_scan_some (htqcap ▸ hq) (by rw [htq, htqcap]; exact hlen) htf hs' ho'

/-- R122's loop keeps the invariant. -/
theorem scanLoop_inv (fuel : Nat) : ∀ {s : State}, s.Inv → (scanLoop fuel s).Inv := by
  induction fuel with
  | zero => exact id
  | succ fuel ih =>
    intro s h
    unfold scanLoop
    split
    · exact h
    · split
      · exact h
      · exact ih (scanPass_inv h ‹_› ‹_›)

/-- The end of a POLL keeps the invariant (R131, R132). -/
theorem pollEnd_inv {s t : State} {sc : Scan} (h : s.Inv) (he : pollEnd s sc = .next t) : t.Inv := by
  obtain ⟨hq, hlen, hf, -, -⟩ := h
  obtain ⟨-, rfl⟩ := pollEnd_next he
  exact inv_of_scan_none hq (by simp; omega) hf rfl rfl

/-- SUBMIT keeps the invariant, with a POLL in progress too. -/
theorem execSubmit_inv {s t : State} {payload : List Byte} (h : s.Inv) (he : execSubmit payload s = .next t) :
    t.Inv := by
  obtain ⟨-, hx⟩ | ⟨-, -, hx⟩ | ⟨-, hfree, hx⟩ := execSubmit_cases payload s
  · rw [hx] at he; cases he; exact h
  · rw [hx] at he; cases he; exact h
  · rw [hx] at he; cases he
    exact (inv_respond_iff _ _ _ _).mpr (queueWrite_inv h hfree)

/-- POLL keeps the invariant: so do its start, its loop and its end. -/
theorem execPoll_inv {s t : State} (h : s.Inv) (he : execPoll s = .next t) : t.Inv := by
  obtain ⟨-, ⟨-, rfl⟩ | ⟨sc, -, hend⟩⟩ := execPoll_next he
  · exact (inv_respond_iff _ _ _ _).mpr h
  · exact pollEnd_inv (scanLoop_inv _ (pollBegin_inv h)) hend

/-- Every instruction that completes keeps the invariant. -/
theorem exec_inv {i : Instr} {s t : State} (h : s.Inv) (he : exec i s = .next t) : t.Inv := by
  obtain ⟨payload, -, hx⟩ | ⟨-, hx⟩ | ⟨-, hx⟩ | hrow := exec_next_cases he
  · exact execSubmit_inv h hx
  · exact execPoll_inv h hx
  · obtain ⟨-, rfl⟩ := execLastFrame_next hx
    exact (inv_respond_iff _ _ _ _).mpr h
  · obtain ⟨sc, d, hs, -, -, -, hp⟩ := exec_row_next hrow he
    exact scanPass_inv h hs hp

/-- Settles O5: an instruction, the end of a POLL and a construction each keep the invariant, and a step is one of them or
idle. -/
theorem everyStepKeepsInvariant : Obligations.EveryStepKeepsInvariant := by
  intro s t h hstep
  obtain ⟨i, l, hx⟩ | ⟨sc, hend⟩ | ⟨qcap, rest, hq, rfl⟩ | rfl := step_next_cases hstep
  · exact exec_inv ((inv_inputs_iff s l).mpr h) hx
  · exact pollEnd_inv h hend
  · exact (inv_inputs_iff _ rest).mpr (constructed_inv hq)
  · exact h

/-! ## What writes LastFrame, and what a row leaves unchanged -/

/-- The candidate that a POLL's loop has found behind its first marker (R128). -/
theorem candidate_at_marker (view : List Byte) (k : Nat) :
    candidate { view := view, i := k + 2, rel := k, ev := none, done := false } = bodyAfter view k := rfl

/-- The scan index of AwaitingBody is just behind a marker at the release count (R133). -/
theorem ScanAt.marker_and_body {sc : Scan} (h : ScanAt .awaitingBody sc) :
    SyncAt sc.view sc.rel ∧ candidate sc = bodyAfter sc.view sc.rel := by
  obtain ⟨hi, h0, h1⟩ := h
  exact ⟨⟨h0, h1⟩, by rw [candidate, scanLeft, bodyAfter, hi]⟩

/-- A candidate that changes LastFrame has passed the checksum and is what LastFrame then holds (R129). -/
theorem takeCandidate_writes {s : State} {sc : Scan} (h : (takeCandidate s sc).lastFrame ≠ s.lastFrame) :
    checksumOk (candidate sc) = true ∧ (takeCandidate s sc).lastFrame = some (unpack (candidate sc)) := by
  rw [takeCandidate_lastFrame] at h ⊢
  by_cases hc : checksumOk (candidate sc) = true
  · exact ⟨hc, if_pos hc⟩
  · exact absurd (if_neg hc) h

/-- A POLL's loop that changes LastFrame found a first marker with a candidate behind it, and took that candidate. -/
theorem pollLoop_writes {s : State}
    (h : (scanLoop (s.q.length + 1) (pollBegin s)).lastFrame ≠ s.lastFrame) :
    ∃ k, FirstSync s.q k ∧ (bodyAfter s.q k).length = 17 ∧ checksumOk (bodyAfter s.q k) = true ∧
      (scanLoop (s.q.length + 1) (pollBegin s)).lastFrame = some (unpack (bodyAfter s.q k)) := by
  obtain ⟨hexh, hinc, hcomp⟩ := pollBegin_stops s
  obtain hno | ⟨k, hk⟩ := noSync_or_firstSync s.q
  · rw [hexh hno] at h; exact absurd rfl h
  · by_cases hlen : s.q.length < k + 19
    · rw [hinc k hk hlen] at h; exact absurd rfl h
    · have hloop := hcomp k hk (Nat.le_of_not_lt hlen)
      simp only [Nat.zero_add] at hloop
      rw [hloop] at h ⊢
      obtain ⟨hc, hwrite⟩ := takeCandidate_writes h
      rw [candidate_at_marker] at hc hwrite
      refine ⟨k, hk, ?_, hc, hwrite⟩
      simp [bodyAfter, Config.bodyLen]; omega

/-- Settles O37: SUBMIT and LAST_FRAME write no LastFrame, POLL writes the candidate its loop took, and of the rows only
FSM_BODY_COMPLETE takes one. -/
theorem onlyAcceptedCandidateWritesLastFrame : Obligations.OnlyAcceptedCandidateWritesLastFrame := by
  intro i s t h hne
  obtain ⟨payload, -, hx⟩ | ⟨rfl, hx⟩ | ⟨-, hx⟩ | hrow := exec_next_cases h
  · have hsame : t.lastFrame = s.lastFrame := by
      obtain ⟨-, he⟩ | ⟨-, -, he⟩ | ⟨-, -, he⟩ := execSubmit_cases payload s
      all_goals rw [he] at hx; cases hx; rfl
    exact absurd hsame hne
  · obtain ⟨-, ⟨-, rfl⟩ | ⟨sc, -, hend⟩⟩ := execPoll_next hx
    · exact absurd rfl hne
    · obtain ⟨-, rfl⟩ := pollEnd_next hend
      obtain ⟨k, hk, hlen, hc, hwrite⟩ := pollLoop_writes hne
      exact ⟨bodyAfter s.q k, hlen, hc, hwrite, frameOk_unpack hlen hc, .inl ⟨rfl, k, hk, rfl⟩⟩
  · obtain ⟨-, rfl⟩ := execLastFrame_next hx
    exact absurd rfl hne
  · obtain ⟨sc, hs, ⟨-, ⟨d, n, rfl⟩ | rfl⟩ | ⟨rfl, hd, hl, rfl⟩⟩ := exec_row_next_cases hrow h
    · exact absurd rfl hne
    · exact absurd rfl hne
    · obtain ⟨hc, hwrite⟩ := takeCandidate_writes hne
      rw [scanLeft_length] at hl
      have hlen := candidate_length hl
      exact ⟨candidate sc, hlen, hc, hwrite, frameOk_unpack hlen hc, .inr ⟨rfl, hd, sc, hs, rfl, ScanAt.marker_and_body⟩⟩

/-- Settles O44: a row consumes a byte, leaves the loop, or takes the candidate, and only the last writes LastFrame or the
event. -/
theorem rowFrame : Obligations.RowFrame := by
  intro i s t hi h
  obtain ⟨sc, hs, ⟨-, ⟨d, n, rfl⟩ | rfl⟩ | ⟨rfl, -, -, rfl⟩⟩ := exec_row_next_cases hi h
  · simp [hs]
  · simp [hs]
  · simp [takeCandidate_scan, candidateTaken, hs]

/-! ## Construction -/

/-- Settles O1: construction with an admitted capacity answers `State.constructed`, whose fields are R29's values. -/
theorem constructionLeavesResetValues : Obligations.ConstructionLeavesResetValues := by
  refine ⟨fun qcap hq => ?_, ?_⟩
  · obtain ⟨-, hc⟩ | ⟨hlt, -⟩ := construct_cases qcap
    · exact ⟨_, hc, rfl, rfl, rfl, rfl, rfl⟩
    · omega
  · obtain ⟨-, hc⟩ | ⟨hlt, -⟩ := construct_cases State.reset.qcap
    · exact hc
    · exact absurd hlt (by decide)

/-- Settles O4: the reset state is constructed with an admitted capacity, as is every state construction answers. -/
theorem constructionMeetsInvariant : Obligations.ConstructionMeetsInvariant := by
  refine ⟨constructed_inv (by decide), fun qcap t h => ?_⟩
  obtain ⟨hq, hc⟩ | ⟨-, hc⟩ := construct_cases qcap
  · rw [hc] at h; cases h; exact constructed_inv hq
  · rw [hc] at h; cases h

end Sys2Proof.Machine

namespace Sys2Proof.Machine

/-! ## A request that a step takes (R52, R73, R249) -/

/-- A request that is not refused, and whose command its agent may issue there, is found as that command on the state from
which the command's bytes have been taken. -/
theorem fetchRequest_of_decodeCommand {s : State} {r : Request} {rest : List Input} {i : Instr} {left : List Byte}
    (hreq : refuseRequest r = none) (hi : decodeCommand r.bytes = .ok (i, left)) (hop : refuseOperation r i = none) :
    fetchRequest s r rest = .run i { s with inputs := inputsAfter r left rest } := by
  simp only [fetchRequest, hreq, hi, hop]

/-- With no POLL in progress a step looks at the oldest input, here a request. -/
theorem fetch_of_request {s : State} {r : Request} {rest : List Input} (hscan : s.scan = none)
    (hin : s.inputs = .request r :: rest) : fetch s = fetchRequest s r rest := by
  simp only [fetch, fetchInput, hscan, hin]

/-- Settles O6: what a step finds is the command that the oldest request spells, and a step runs what it finds. -/
theorem stepRunsDecodedCommand : Obligations.StepRunsDecodedCommand := by
  intro s r rest i left hs hscan hin hreq hi hop
  exact step_of_fetch_run hs ((fetch_of_request hscan hin).trans (fetchRequest_of_decodeCommand hreq hi hop))

/-! ## A step with a POLL in progress, and without one -/

/-- A state that meets the invariant is within the spec: `QCAP` has room for a frame and the scan state is no unused code. -/
theorem unsupported_of_inv {s : State} (h : s.Inv) : unsupported s = none := by
  obtain ⟨hq, -, -, hidle, hscan⟩ := h
  refine (unsupported_none_iff s).mpr ⟨hq, ?_⟩
  cases hs : s.scan with
  | none => exact ⟨.seekFirstSync, by rw [hidle hs, ofBits_bits]⟩
  | some sc =>
    obtain ⟨-, -, -, -, hrun, hend⟩ := hscan sc hs
    cases hdone : sc.done with
    | false => obtain ⟨-, d, hd, -⟩ := hrun hdone; exact ⟨d, hd⟩
    | true => exact ⟨.awaitingBody, by rw [hend hdone, ofBits_bits]⟩

/-- No row is decoded only where the view is exhausted in a seek state (R122). -/
theorem decodeScan_eq_none {d : DecoderState} {left : List Byte} (h : decodeScan d left = none) :
    d ≠ .awaitingBody ∧ left = [] := by
  cases d with
  | awaitingBody =>
    unfold decodeScan at h
    by_cases hl : Config.bodyLen ≤ left.length <;> simp [hl] at h
  | seekFirstSync | seekSecondSync =>
    cases left with
    | nil => exact ⟨nofun, rfl⟩
    | cons b rest => by_cases hb : b = Config.syncByte <;> simp [decodeScan, hb] at h

/-- Where no row is decoded the loop takes no pass. -/
theorem scanPass_of_decodeScan_none {s : State} {sc : Scan} {d : DecoderState} (hd : s.decoderState = d.bits)
    (hi : decodeScan d (scanLeft sc) = none) : scanPass s sc = none := by
  obtain ⟨hne, hl⟩ := decodeScan_eq_none hi
  exact scanPass_exhausted (by rw [hd]; revert hne; cases d <;> decide) hl

/-- A step with a POLL in progress is one pass of R122's loop where the loop takes one, and the POLL's end where it does
not. -/
theorem step_scanning {s : State} {sc : Scan} (h : s.Inv) (hs : s.scan = some sc) :
    (∃ t, scanPass s sc = some t ∧ step s = .next t) ∨ (scanPass s sc = none ∧ step s = pollEnd s sc) := by
  have hsup := unsupported_of_inv h
  have hend : fetchRow s sc = .endPoll sc → step s = pollEnd s sc := fun hf => by
    simp only [step, hsup, fetch_of_scan hs, hf]
  obtain ⟨-, -, -, -, hscan⟩ := h
  obtain ⟨-, -, -, -, hrun, -⟩ := hscan sc hs
  cases hdone : sc.done with
  | true => exact .inr ⟨scanPass_done s sc hdone, hend (by simp only [fetchRow, hdone, if_true])⟩
  | false =>
    obtain ⟨-, d, hd, -⟩ := hrun hdone
    have hbits := (ofBits_eq_some_iff _ _).mp hd
    cases hi : decodeScan d (scanLeft sc) with
    | some i =>
      obtain ⟨t, hx, hp⟩ := exec_decoded_row hs hdone hbits hi
      exact .inl ⟨t, hp, (stepRunsDecodedRow s sc d i hsup hs hdone hd hi).trans hx⟩
    | none =>
      exact .inr ⟨scanPass_of_decodeScan_none hbits hi,
        hend (by simp only [fetchRow, hdone, hd, hi, Bool.false_eq_true, if_false])⟩

/-- An instruction that completes with no POLL in progress leaves none in progress: POLL is atomic (R7), and no row runs. -/
theorem exec_scan_none {i : Instr} {s t : State} (hs : s.scan = none) (h : exec i s = .next t) : t.scan = none := by
  obtain ⟨payload, -, hx⟩ | ⟨-, hx⟩ | ⟨-, hx⟩ | hrow := exec_next_cases h
  · obtain ⟨-, he⟩ | ⟨-, -, he⟩ | ⟨-, -, he⟩ := execSubmit_cases payload s
    all_goals rw [he] at hx; cases hx; exact hs
  · obtain ⟨-, ⟨-, rfl⟩ | ⟨sc, -, hend⟩⟩ := execPoll_next hx
    · exact hs
    · obtain ⟨-, rfl⟩ := pollEnd_next hend; rfl
  · obtain ⟨-, rfl⟩ := execLastFrame_next hx; exact hs
  · obtain ⟨sc, hsc, -⟩ := exec_row_next_cases hrow h
    rw [hs] at hsc; cases hsc

/-- No step starts a POLL in progress (log entry 5). -/
theorem step_scan_none {s t : State} (hs : s.scan = none) (h : step s = .next t) : t.scan = none := by
  obtain ⟨i, l, hx⟩ | ⟨sc, hend⟩ | ⟨qcap, rest, -, rfl⟩ | rfl := step_next_cases h
  · exact exec_scan_none (s := { s with inputs := l }) hs hx
  · obtain ⟨-, rfl⟩ := pollEnd_next hend; rfl
  · rfl
  · exact hs

/-- No run starts a POLL in progress (log entry 5). -/
theorem runSteps_scan_none (n : Nat) : ∀ {s t : State}, s.scan = none → runSteps n s = .next t → t.scan = none := by
  induction n with
  | zero => intro s t hs h; cases h; exact hs
  | succ n ih =>
    intro s t hs h
    obtain ⟨u, hu, hr⟩ := runSteps_succ h
    exact ih (step_scan_none hs hu) hr

/-! ## R122's loop as a run -/

/-- With no POLL in progress the loop does nothing. -/
theorem scanLoop_idle {s : State} (hs : s.scan = none) (n : Nat) : scanLoop n s = s := by
  cases n <;> simp only [scanLoop, hs]

/-- The loop in two parts. -/
theorem scanLoop_add (b : Nat) : ∀ (a : Nat) (s : State), scanLoop (a + b) s = scanLoop b (scanLoop a s)
  | 0, s => by rw [Nat.zero_add]; rfl
  | a + 1, s => by
    cases hs : s.scan with
    | none => simp only [scanLoop_idle hs]
    | some sc =>
      cases hp : scanPass s sc with
      | none => simp only [scanLoop_stop hs hp]
      | some t => rw [Nat.add_right_comm, scanLoop_pass hs hp, scanLoop_pass hs hp, scanLoop_add b a t]

/-- The loop leaves the buffer, `QCAP`, the latest response and the inputs alone. -/
theorem scanLoop_fields (n : Nat) : ∀ s : State, (scanLoop n s).q = s.q ∧ (scanLoop n s).qcap = s.qcap ∧
    (scanLoop n s).response = s.response ∧ (scanLoop n s).inputs = s.inputs := by
  induction n with
  | zero => exact fun s => ⟨rfl, rfl, rfl, rfl⟩
  | succ n ih =>
    intro s
    cases hs : s.scan with
    | none => rw [scanLoop_idle hs]; exact ⟨rfl, rfl, rfl, rfl⟩
    | some sc =>
      cases hp : scanPass s sc with
      | none => rw [scanLoop_stop hs hp]; exact ⟨rfl, rfl, rfl, rfl⟩
      | some t =>
        obtain ⟨hq, hcap, hr, hin⟩ := scanPass_fields hp
        rw [scanLoop_pass hs hp, ← hq, ← hcap, ← hr, ← hin]
        exact ih t

/-- Steps that leave the POLL in progress are passes of the loop. -/
theorem runSteps_scanning (n : Nat) : ∀ {s t : State}, s.Inv → runSteps n s = .next t → t.scan ≠ none →
    t = scanLoop n s := by
  induction n with
  | zero => intro s t _ h _; cases h; rfl
  | succ n ih =>
    intro s t hinv h ht
    obtain ⟨u, hu, hr⟩ := runSteps_succ h
    have hscan : u.scan ≠ none := fun hn => ht (runSteps_scan_none n hn hr)
    cases hs : s.scan with
    | none => exact absurd (step_scan_none hs hu) hscan
    | some sc =>
      obtain ⟨u', hp, hstep⟩ | ⟨-, hstep⟩ := step_scanning hinv hs
      · cases hu.symm.trans hstep
        rw [scanLoop_pass hs hp]
        exact ih (scanPass_inv hinv hs hp) hr ht
      · obtain ⟨-, rfl⟩ := pollEnd_next (hstep.symm.trans hu)
        exact absurd rfl hscan

/-- A loop of at most `n` passes is a run of at most `n` steps. -/
theorem runSteps_of_scanLoop (n : Nat) : ∀ {s : State}, s.Inv → ∃ k, k ≤ n ∧ runSteps k s = .next (scanLoop n s) := by
  induction n with
  | zero => exact fun {s} _ => ⟨0, le_refl 0, rfl⟩
  | succ n ih =>
    intro s hinv
    cases hs : s.scan with
    | none => exact ⟨0, Nat.zero_le _, by rw [scanLoop_idle hs]; rfl⟩
    | some sc =>
      obtain ⟨t, hp, hstep⟩ | ⟨hp, -⟩ := step_scanning hinv hs
      · obtain ⟨k, hk, hrun⟩ := ih (scanPass_inv hinv hs hp)
        exact ⟨k + 1, Nat.succ_le_succ hk, by rw [runSteps_next hstep, hrun, scanLoop_pass hs hp]⟩
      · exact ⟨0, Nat.zero_le _, by rw [scanLoop_stop hs hp]; rfl⟩

/-- A loop that has stopped after `n` passes, and the POLL's end, are a run of at most `n + 1` steps. -/
theorem runSteps_to_pollEnd {s t : State} {sc : Scan} {n : Nat} (hinv : s.Inv) (hs : (scanLoop n s).scan = some sc)
    (hp : scanPass (scanLoop n s) sc = none) (hend : pollEnd (scanLoop n s) sc = .next t) :
    ∃ k, k ≤ n + 1 ∧ runSteps k s = .next t := by
  obtain ⟨k, hk, hrun⟩ := runSteps_of_scanLoop n hinv
  obtain ⟨u, hpass, -⟩ | ⟨-, hstep⟩ := step_scanning (scanLoop_inv n hinv) hs
  · rw [hp] at hpass; cases hpass
  · exact ⟨k + 1, Nat.succ_le_succ hk, by rw [runSteps_add 1 k s hrun, runSteps_next (hstep.trans hend)]; rfl⟩

/-- The loop of a POLL has stopped after `L + 1` passes: the view is exhausted in a seek state, or R127 or R128 has ended the
scan (R122). -/
theorem pollLoop_stopped (s : State) : ∃ sc, (scanLoop (s.q.length + 1) (pollBegin s)).scan = some sc ∧
    scanPass (scanLoop (s.q.length + 1) (pollBegin s)) sc = none := by
  obtain ⟨hexh, hinc, hcomp⟩ := pollBegin_stops s
  obtain hno | ⟨k, hk⟩ := noSync_or_firstSync s.q
  · rw [hexh hno]
    refine ⟨_, rfl, scanPass_exhausted ?_ (by simp [scanLeft])⟩
    dsimp only
    split <;> decide
  · by_cases hlen : s.q.length < k + 19
    · rw [hinc k hk hlen]
      exact ⟨_, rfl, scanPass_done _ _ rfl⟩
    · rw [hcomp k hk (Nat.le_of_not_lt hlen)]
      exact ⟨_, takeCandidate_scan _ _, scanPass_done _ _ rfl⟩

/-- Passes behind the last one change nothing, so a POLL's loop resumed after any number of passes stops where the whole loop
does. -/
theorem pollLoop_resumed (s : State) (n : Nat) :
    scanLoop (s.q.length + 1) (scanLoop n (pollBegin s)) = scanLoop (s.q.length + 1) (pollBegin s) := by
  obtain ⟨sc, hs, hp⟩ := pollLoop_stopped s
  rw [← scanLoop_add, Nat.add_comm, scanLoop_add, scanLoop_stop hs hp]

/-- A POLL of a buffer that is not empty is the end of its loop (R122). -/
theorem exec_poll_of_loop {s : State} {sc : Scan} (hidle : s.scan = none) (hq : s.q ≠ [])
    (hs : (scanLoop (s.q.length + 1) (pollBegin s)).scan = some sc) :
    exec .poll s = pollEnd (scanLoop (s.q.length + 1) (pollBegin s)) sc := by
  show execPoll s = _
  simp only [execPoll, hidle, if_neg hq, pollScan, hs]

/-! ## What a SUBMIT can write does not reach a POLL in progress (R53) -/

/-- `s` with the two fields written that a SUBMIT can write: the buffer and the response. -/
def withQueue (s : State) (q : List Byte) (r : Option Response) : State := { s with q := q, response := r }

/-- A refused SUBMIT as such a write. -/
theorem respond_eq_withQueue (s : State) (a : Agent) (st : Status) (f : Option RawFrame) :
    respond s a st f = withQueue s s.q (some { agent := a, status := st, frame := f }) := rfl

/-- An accepted SUBMIT as such a write. -/
theorem respond_queueWrite_eq_withQueue (s : State) (b : List Byte) (a : Agent) (st : Status) (f : Option RawFrame) :
    respond (queueWrite s b) a st f = withQueue s (s.q ++ b) (some { agent := a, status := st, frame := f }) := rfl

/-- Taking a candidate reads neither field (R128, R129). -/
theorem takeCandidate_withQueue (s : State) (sc : Scan) (q : List Byte) (r : Option Response) :
    takeCandidate (withQueue s q r) sc = withQueue (takeCandidate s sc) q r := by
  unfold takeCandidate; split <;> rfl

/-- A pass of R122's loop reads neither field: it is taken on the view, and it leaves both as they are. -/
theorem scanPass_withQueue (s : State) (sc : Scan) (q : List Byte) (r : Option Response) :
    scanPass (withQueue s q r) sc = (scanPass s sc).map (withQueue · q r) := by
  have hd : (withQueue s q r).decoderState = s.decoderState := rfl
  unfold scanPass
  rw [hd, takeCandidate_withQueue]
  repeat' split
  all_goals rfl

/-- R122's loop reads neither field. -/
theorem scanLoop_withQueue (q : List Byte) (r : Option Response) (n : Nat) : ∀ s : State,
    scanLoop n (withQueue s q r) = withQueue (scanLoop n s) q r := by
  induction n with
  | zero => exact fun _ => rfl
  | succ n ih =>
    intro s
    cases hs : s.scan with
    | none => rw [scanLoop_idle hs, scanLoop_idle (s := withQueue s q r) hs]
    | some sc =>
      have hw := scanPass_withQueue s sc q r
      cases hp : scanPass s sc with
      | none => rw [hp] at hw; rw [scanLoop_stop hs hp, scanLoop_stop (s := withQueue s q r) hs hw]
      | some t => rw [hp] at hw; rw [scanLoop_pass hs hp, scanLoop_pass (s := withQueue s q r) hs hw, ih t]

/-- The end of a POLL releases as many bytes of whatever buffer is there, and writes the response anew. -/
theorem pollEnd_withQueue {w p : State} {sc : Scan} (h : pollEnd w sc = .next p) (q : List Byte) (r : Option Response) :
    pollEnd (withQueue w q r) sc = .next (withQueue p (q.drop sc.rel) p.response) := by
  obtain ⟨hle, rfl⟩ := pollEnd_next h
  rw [pollEnd_of_le _ _ hle]; rfl

/-- A POLL of a buffer that is not empty completes, and what it releases are the oldest bytes of the buffer. -/
theorem pollLoop_ends {s : State} (hinv : s.Inv) : ∃ sc p, (scanLoop (s.q.length + 1) (pollBegin s)).scan = some sc ∧
    scanPass (scanLoop (s.q.length + 1) (pollBegin s)) sc = none ∧
    pollEnd (scanLoop (s.q.length + 1) (pollBegin s)) sc = .next p ∧
    sc.rel ≤ s.q.length ∧ p.q = s.q.drop sc.rel ∧ p.qcap = s.qcap ∧ p.scan = none := by
  obtain ⟨sc, hs, hp⟩ := pollLoop_stopped s
  obtain ⟨hq, hcap, -, -⟩ := scanLoop_fields (s.q.length + 1) (pollBegin s)
  obtain ⟨-, -, -, -, hscan⟩ := scanLoop_inv (s.q.length + 1) (pollBegin_inv hinv)
  obtain ⟨hview, -, hrel, -⟩ := hscan sc hs
  have hlen := hview.length_le
  rw [hq, pollBegin_q] at hlen
  exact ⟨sc, _, hs, hp, pollEnd_of_le _ _ hrel, hrel.trans hlen, by rw [hq]; rfl, hcap, rfl⟩

/-- A POLL of a buffer that is not empty does not read the response of the operation before it. -/
theorem exec_poll_respond {s : State} (hinv : s.Inv) (hidle : s.scan = none) (hq : s.q ≠ []) (a : Agent) (st : Status)
    (f : Option RawFrame) : exec .poll (respond s a st f) = exec .poll s := by
  obtain ⟨sc, p, hs, -, hend, -, hpq, -, -⟩ := pollLoop_ends hinv
  have hloop : scanLoop (s.q.length + 1) (pollBegin (respond s a st f)) =
      withQueue (scanLoop (s.q.length + 1) (pollBegin s)) s.q (some { agent := a, status := st, frame := f }) :=
    scanLoop_withQueue s.q _ (s.q.length + 1) (pollBegin s)
  have hs' : (scanLoop ((respond s a st f).q.length + 1) (pollBegin (respond s a st f))).scan = some sc := by
    rw [respond_q, hloop]; exact hs
  rw [exec_poll_of_loop (s := respond s a st f) hidle hq hs', exec_poll_of_loop hidle hq hs, hend, respond_q, hloop,
    pollEnd_withQueue hend, ← hpq]
  rfl

/-- A POLL in progress that finds another buffer between two of its rows ends as it would have, but for the bytes behind its
release: the passes left do not read the buffer. -/
theorem poll_resumed {s m p : State} {sc : Scan} {n : Nat} {q : List Byte} {r : Option Response}
    (hm : m = scanLoop n (pollBegin s)) (hs : (scanLoop (s.q.length + 1) (pollBegin s)).scan = some sc)
    (hp : scanPass (scanLoop (s.q.length + 1) (pollBegin s)) sc = none)
    (hend : pollEnd (scanLoop (s.q.length + 1) (pollBegin s)) sc = .next p) (hinv : (withQueue m q r).Inv) :
    ∃ k, k ≤ s.q.length + 2 ∧ runSteps k (withQueue m q r) = .next (withQueue p (q.drop sc.rel) p.response) := by
  have hloop : scanLoop (s.q.length + 1) (withQueue m q r) =
      withQueue (scanLoop (s.q.length + 1) (pollBegin s)) q r := by
    rw [scanLoop_withQueue, hm, pollLoop_resumed]
  refine runSteps_to_pollEnd (sc := sc) hinv ?_ ?_ ?_ <;> rw [hloop]
  · exact hs
  · rw [scanPass_withQueue, hp]; rfl
  · exact pollEnd_withQueue hend q r

/-! ## A SUBMIT between two rows is serial (R53) -/

/-- A payload within the free space is accepted (R103). -/
theorem execSubmit_of_le_free {payload : List Byte} {s : State} (h : payload.length ≤ s.qcap - s.q.length) :
    execSubmit payload s = .next (respond (queueWrite s payload) .producer .ok none) := by
  obtain ⟨hlt, -⟩ | ⟨-, hlt, -⟩ | ⟨-, -, hx⟩ := execSubmit_cases payload s
  · omega
  · omega
  · exact hx

/-- A SUBMIT in two states of the same buffer and capacity: within the free space of both and accepted, or refused in both with
one status. -/
theorem execSubmit_same_buffer {payload : List Byte} {m s u : State} (hq : m.q = s.q) (hcap : m.qcap = s.qcap)
    (h : execSubmit payload m = .next u) :
    (payload.length ≤ s.qcap - s.q.length ∧ u = respond (queueWrite m payload) .producer .ok none) ∨
    ∃ st, st ≠ .ok ∧ u = respond m .producer st none ∧ execSubmit payload s = .next (respond s .producer st none) := by
  have hlen : m.q.length = s.q.length := by rw [hq]
  obtain ⟨hlt, hx⟩ | ⟨hle, hfull, hx⟩ | ⟨-, hfree, hx⟩ := execSubmit_cases payload m
  all_goals cases h.symm.trans hx
  · obtain ⟨-, hy⟩ | ⟨hle, -⟩ | ⟨hle, -⟩ := execSubmit_cases payload s
    · exact .inr ⟨.capacityExceeded, nofun, rfl, hy⟩
    all_goals omega
  · obtain ⟨hlt, -⟩ | ⟨-, -, hy⟩ | ⟨-, hfree, -⟩ := execSubmit_cases payload s
    · omega
    · exact .inr ⟨.queueFull, nofun, rfl, hy⟩
    · omega
  · exact .inl ⟨by omega, rfl⟩

/-- Settles O34: the rows before the SUBMIT are passes of the POLL's loop, and the passes left do not read what the SUBMIT
wrote. An accepted SUBMIT appends behind what the POLL releases, so it may as well come after; a refused one writes the response
only, which the POLL overwrites, so it may as well come before. -/
theorem concurrentSubmitIsSerial : Obligations.ConcurrentSubmitIsSerial := by
  intro s payload n m u r hinv hidle hne hrun hscan hsub hr
  obtain ⟨sc, p, hs, hp, hend, hrel, hpq, hpcap, hpscan⟩ := pollLoop_ends hinv
  have hpoll : exec .poll s = .next p := (exec_poll_of_loop hidle hne hs).trans hend
  have hm : m = scanLoop n (pollBegin s) := runSteps_scanning n (pollBegin_inv hinv) hrun hscan
  obtain ⟨hmq, hmcap, -, -⟩ := scanLoop_fields n (pollBegin s)
  rw [← hm, pollBegin_q] at hmq
  rw [← hm, pollBegin_qcap] at hmcap
  have hminv : m.Inv := hm ▸ scanLoop_inv n (pollBegin_inv hinv)
  have huinv : u.Inv := execSubmit_inv hminv hsub
  obtain ⟨hfree, rfl⟩ | ⟨st, hst, rfl, hserial⟩ := execSubmit_same_buffer hmq hmcap hsub
  all_goals cases hr
  · rw [respond_queueWrite_eq_withQueue] at huinv ⊢
    obtain ⟨k, hk, hv⟩ := poll_resumed hm hs hp hend huinv
    have hbuf : (m.q ++ payload).drop sc.rel = p.q ++ payload := by
      rw [hmq, hpq, List.drop_append_of_le_length hrel]
    have hpfree : payload.length ≤ p.qcap - p.q.length := by rw [hpq, hpcap, List.length_drop]; omega
    exact ⟨k, _, hk, hv, hpscan,
      fun _ => ⟨p, hpoll, hbuf ▸ execSubmit_of_le_free hpfree, rfl⟩, fun h => absurd rfl h⟩
  · rw [respond_eq_withQueue] at huinv ⊢
    obtain ⟨k, hk, hv⟩ := poll_resumed hm hs hp hend huinv
    have hbuf : m.q.drop sc.rel = p.q := by rw [hmq, hpq]
    refine ⟨k, _, hk, hv, hpscan, fun h => absurd h hst, fun _ => ⟨_, hserial, rfl, ?_⟩⟩
    rw [exec_poll_respond hinv hidle hne, hpoll, hbuf]
    rfl

end Sys2Proof.Machine

namespace Sys2Proof.Machine

/-! ## Concatenated bit vectors -/

/-- A concatenation as a number. -/
theorem append_toNat {n m : Nat} (a : BitVec n) (b : BitVec m) : (a ++ b).toNat = b.toNat + 2 ^ m * a.toNat := by
  rw [BitVec.toNat_append, ← Nat.shiftLeft_add_eq_or_of_lt b.isLt, Nat.shiftLeft_eq]
  ring

/-- A mask that keeps the high part of a concatenation and clears its low part. -/
theorem append_and_highMask {n m : Nat} (a : BitVec n) (b : BitVec m) :
    (a ++ b) &&& (BitVec.allOnes n ++ 0#m) = a ++ 0#m := by
  rw [append_and_append, BitVec.and_allOnes, BitVec.and_zero]

/-! ## Words with an `OP` of four and more (R72) -/

/-- `OP` of a word whose bits [15:14] are 01. -/
theorem four_le_cmdOp_01 (low : BitVec 14) : 4 ≤ (cmdOp (1#2 ++ low)).toNat := by
  rw [cmdOp_toNat, append_toNat, BitVec.toNat_ofNat]
  omega

/-- `OP` of a word whose bit 15 is 1. -/
theorem four_le_cmdOp_1 (low : BitVec 15) : 4 ≤ (cmdOp (1#1 ++ low)).toNat := by
  rw [cmdOp_toNat, append_toNat, BitVec.toNat_ofNat]
  omega

/-- Bit 15 as a number. -/
theorem bit15_toNat (w : Word16) : (w.extractLsb' 15 1).toNat = w.toNat / 32768 := by
  have := w.isLt
  simp only [BitVec.extractLsb'_toNat, Nat.shiftRight_eq_div_pow]
  omega

/-- A word with bit 15 clear and an `OP` of four and more has 01 in bits [15:14]. -/
theorem append_low14 {w : Word16} (hop : 4 ≤ (cmdOp w).toNat) (h15 : w.extractLsb' 15 1 = 0#1) :
    1#2 ++ w.extractLsb' 0 14 = w := by
  have hw : w.toNat / 32768 = 0 := by rw [← bit15_toNat, h15]; rfl
  rw [cmdOp_toNat] at hop
  apply BitVec.eq_of_toNat_eq
  rw [append_toNat, BitVec.extractLsb'_toNat, Nat.shiftRight_zero, BitVec.toNat_ofNat]
  omega

/-- A word with bit 15 set. -/
theorem append_low15 {w : Word16} (h15 : w.extractLsb' 15 1 ≠ 0#1) : 1#1 ++ w.extractLsb' 0 15 = w := by
  have hw : w.toNat / 32768 ≠ 0 := by
    rw [← bit15_toNat]
    exact fun h => h15 (BitVec.eq_of_toNat_eq h)
  have := w.isLt
  apply BitVec.eq_of_toNat_eq
  rw [append_toNat, BitVec.extractLsb'_toNat, Nat.shiftRight_zero, BitVec.toNat_ofNat]
  omega

/-! ## The decoder of command words, by `OP` (R71, R72) -/

/-- SUBMIT takes `LEN` bytes, where they are there. -/
theorem decodeWord_op1 (len : BitVec 12) (rest : List Byte) : decodeWord (1#4 ++ len) rest =
    if len.toNat ≤ rest.length then .ok (.submit (rest.take len.toNat), rest.drop len.toNat)
    else .error .incompletePayload := by
  simp [decodeWord]

theorem decodeWord_op2 (len : BitVec 12) (rest : List Byte) : decodeWord (2#4 ++ len) rest =
    .ok (if len = 0#12 then .poll else .reservedPollLen len, rest) := by
  rw [decodeWord, cmdOp_append, cmdLen_append, if_neg (by decide), if_pos rfl]
  split <;> rfl

theorem decodeWord_op3 (len : BitVec 12) (rest : List Byte) : decodeWord (3#4 ++ len) rest =
    .ok (if len = 0#12 then .lastFrame else .reservedLastFrameLen len, rest) := by
  rw [decodeWord, cmdOp_append, cmdLen_append, if_neg (by decide), if_neg (by decide), if_pos rfl]
  split <;> rfl

theorem decodeWord_op0 (low : BitVec 12) (rest : List Byte) :
    decodeWord (0#4 ++ low) rest = .ok (.reservedOp0 low, rest) := by
  simp [decodeWord]

/-- From four on, bit 15 tells the two reserved ranges apart. -/
theorem decodeWord_of_four_le {w : Word16} (hop : 4 ≤ (cmdOp w).toNat) (rest : List Byte) : decodeWord w rest =
    .ok (if w.extractLsb' 15 1 = 0#1 then .reservedOp4to7 (w.extractLsb' 0 14)
      else .reservedOp8toF (w.extractLsb' 0 15), rest) := by
  have hne : ∀ op : BitVec 4, op.toNat < 4 → cmdOp w ≠ op := by rintro op h rfl; omega
  rw [decodeWord, if_neg (hne 1#4 (by decide)), if_neg (hne 2#4 (by decide)), if_neg (hne 3#4 (by decide)),
    if_neg (hne 0#4 (by decide))]
  split <;> rfl

/-- A word is one of the other four `OP`s with its `LEN`, or its `OP` is four or more. -/
theorem word_cases (w : Word16) :
    (∃ len : BitVec 12, w = 0#4 ++ len) ∨ (∃ len : BitVec 12, w = 1#4 ++ len) ∨
      (∃ len : BitVec 12, w = 2#4 ++ len) ∨ (∃ len : BitVec 12, w = 3#4 ++ len) ∨ 4 ≤ (cmdOp w).toNat := by
  have split_op : ∀ op : BitVec 4, op = 0#4 ∨ op = 1#4 ∨ op = 2#4 ∨ op = 3#4 ∨ 4 ≤ op.toNat := by decide
  have with_len : ∀ op : BitVec 4, cmdOp w = op → ∃ len : BitVec 12, w = op ++ len := by
    rintro _ rfl
    exact ⟨cmdLen w, (cmdOp_append_cmdLen w).symm⟩
  exact (split_op (cmdOp w)).imp (with_len _) (.imp (with_len _) (.imp (with_len _) (.imp_left (with_len _))))

/-! ## Decoding and encoding commands (R70 to R73) -/

/-- A command word with its payload behind it decodes to the instruction it was made of. -/
theorem decodeWord_of_cmdWord {i : Instr} {w : Word16} (hwf : WellFormed i = true) (hw : cmdWord i = some w)
    (rest : List Byte) : decodeWord w (cmdPayload i ++ rest) = .ok (i, rest) := by
  cases i with
  | submit payload =>
    cases hw
    have hlen : (BitVec.ofNat 12 payload.length).toNat = payload.length := by
      have : payload.length ≤ 4095 := of_decide_eq_true hwf
      rw [BitVec.toNat_ofNat]
      omega
    rw [decodeWord_op1, hlen]
    simp [cmdPayload]
  | poll => cases hw; exact decodeWord_op2 0#12 rest
  | lastFrame => cases hw; exact decodeWord_op3 0#12 rest
  | reservedOp0 low => cases hw; exact decodeWord_op0 low rest
  | reservedOp4to7 low =>
    cases hw
    have h15 : (1#2 ++ low).extractLsb' 15 1 = 0#1 := by
      apply BitVec.eq_of_toNat_eq
      rw [bit15_toNat, append_toNat, BitVec.toNat_ofNat, BitVec.toNat_ofNat]
      omega
    rw [decodeWord_of_four_le (four_le_cmdOp_01 low), if_pos h15, extract_low_append]
    rfl
  | reservedOp8toF low =>
    cases hw
    have h15 : (1#1 ++ low).extractLsb' 15 1 ≠ 0#1 := by
      rw [extract_high_append]
      decide
    rw [decodeWord_of_four_le (four_le_cmdOp_1 low), if_neg h15, extract_low_append]
    rfl
  | reservedPollLen len =>
    cases hw
    rw [decodeWord_op2, if_neg (of_decide_eq_true hwf)]
    rfl
  | reservedLastFrameLen len =>
    cases hw
    rw [decodeWord_op3, if_neg (of_decide_eq_true hwf)]
    rfl
  | fsmSyncInSeekFirst | fsmOtherInSeekFirst | fsmSyncInSeekSecond | fsmOtherInSeekSecond | fsmBodyComplete
  | fsmBodyIncomplete => cases hw

/-- A word that decodes is the command word of what it decodes to, with the payload in front of the bytes left over. -/
theorem decodeWord_ok {w : Word16} {rest left : List Byte} {i : Instr} (h : decodeWord w rest = .ok (i, left)) :
    WellFormed i = true ∧ cmdWord i = some w ∧ rest = cmdPayload i ++ left := by
  obtain ⟨len, rfl⟩ | ⟨len, rfl⟩ | ⟨len, rfl⟩ | ⟨len, rfl⟩ | hop := word_cases w
  · rw [decodeWord_op0] at h
    cases h; exact ⟨rfl, rfl, rfl⟩
  · rw [decodeWord_op1] at h
    split at h
    · cases h
      have hlen : (rest.take len.toNat).length = len.toNat := List.length_take_of_le ‹_›
      refine ⟨decide_eq_true ?_, ?_, (List.take_append_drop _ _).symm⟩
      · rw [hlen]; exact Nat.le_of_lt_succ len.isLt
      · rw [cmdWord, hlen, BitVec.ofNat_toNat, BitVec.setWidth_eq]
    · cases h
  · rw [decodeWord_op2] at h
    split at h
    · subst len; cases h; exact ⟨rfl, rfl, rfl⟩
    · cases h; exact ⟨decide_eq_true ‹_›, rfl, rfl⟩
  · rw [decodeWord_op3] at h
    split at h
    · subst len; cases h; exact ⟨rfl, rfl, rfl⟩
    · cases h; exact ⟨decide_eq_true ‹_›, rfl, rfl⟩
  · rw [decodeWord_of_four_le hop] at h
    split at h
    · cases h; exact ⟨rfl, congrArg some (append_low14 hop ‹_›), rfl⟩
    · cases h; exact ⟨rfl, congrArg some (append_low15 ‹_›), rfl⟩

/-- Settles O52: a command decodes as from its word and payload, and these spell it. -/
theorem decodeOfEncodedCommand : Obligations.DecodeOfEncodedCommand := by
  intro i rest hwf hcmd
  obtain ⟨w, hw⟩ := Option.isSome_iff_exists.mp hcmd
  rw [decodeCommand_encode hw, decodeWord_of_cmdWord hwf hw]

/-- Settles O53: the first two bytes are the command word of what they decode to. -/
theorem encodeOfDecodedCommand : Obligations.EncodeOfDecodedCommand := by
  intro bytes i rest h
  match bytes with
  | [] | [_] => cases h
  | hi :: lo :: behind =>
    obtain ⟨hwf, hw, rfl⟩ := decodeWord_ok h
    exact ⟨hwf, by rw [hw]; rfl, by simp [encode, hw, wordBytes]⟩

/-! ## The opcode table (R71, R72) -/

/-- The command word of an instruction is in its row of the opcode table: the mask keeps the row's fixed high bits. -/
theorem cmdPattern_of_cmdWord {i : Instr} {w : Word16} (hw : cmdWord i = some w) :
    ∃ pattern mask, cmdPattern i = some (pattern, mask) ∧ w &&& mask = pattern := by
  cases i with
  | submit payload => cases hw; exact ⟨_, _, rfl, append_and_highMask 1#4 _⟩
  | poll | lastFrame => cases hw; exact ⟨_, _, rfl, rfl⟩
  | reservedOp0 low => cases hw; exact ⟨_, _, rfl, append_and_highMask 0#4 low⟩
  | reservedOp4to7 low => cases hw; exact ⟨_, _, rfl, append_and_highMask 1#2 low⟩
  | reservedOp8toF low => cases hw; exact ⟨_, _, rfl, append_and_highMask 1#1 low⟩
  | reservedPollLen len => cases hw; exact ⟨_, _, rfl, append_and_highMask 2#4 len⟩
  | reservedLastFrameLen len => cases hw; exact ⟨_, _, rfl, append_and_highMask 3#4 len⟩
  | fsmSyncInSeekFirst | fsmOtherInSeekFirst | fsmSyncInSeekSecond | fsmOtherInSeekSecond | fsmBodyComplete
  | fsmBodyIncomplete => cases hw

/-- Settles O55: a word that decodes is the command word of its instruction, which is in the instruction's row. -/
theorem decodedWordMatchesTableRow : Obligations.DecodedWordMatchesTableRow := by
  intro w rest i left h
  obtain ⟨-, hw, -⟩ := decodeWord_ok h
  exact cmdPattern_of_cmdWord hw

/-! ## Reserved words (R72) -/

/-- The command words of the well-formed instructions that are no operation are the reserved ones. -/
theorem reservedWord_of_cmdWord {i : Instr} {w : Word16} (hwf : WellFormed i = true) (hw : cmdWord i = some w) :
    reservedWord w = !isOperation i := by
  cases i with
  | submit payload => cases hw; simp [reservedWord, isOperation]
  | poll | lastFrame => cases hw; rfl
  | reservedOp0 low => cases hw; simp [reservedWord, isOperation]
  | reservedOp4to7 low => cases hw; simp [reservedWord, isOperation, four_le_cmdOp_01]
  | reservedOp8toF low => cases hw; simp [reservedWord, isOperation, four_le_cmdOp_1]
  | reservedPollLen len | reservedLastFrameLen len =>
    cases hw
    have hlen : len ≠ 0#12 := of_decide_eq_true hwf
    simp [reservedWord, isOperation, hlen]
  | fsmSyncInSeekFirst | fsmOtherInSeekFirst | fsmSyncInSeekSecond | fsmOtherInSeekSecond | fsmBodyComplete
  | fsmBodyIncomplete => cases hw

/-- A command that is no operation is refused in every state by the name of its word. -/
theorem exec_of_reserved {i : Instr} {w : Word16} (hw : cmdWord i = some w) (hop : isOperation i = false) (s : State) :
    exec i s = .refused (.reservedCommandWord w) := by
  cases i with
  | submit | poll | lastFrame => cases hop
  | reservedOp0 | reservedOp4to7 | reservedOp8toF | reservedPollLen | reservedLastFrameLen => cases hw; rfl
  | fsmSyncInSeekFirst | fsmOtherInSeekFirst | fsmSyncInSeekSecond | fsmOtherInSeekSecond | fsmBodyComplete
  | fsmBodyIncomplete => cases hw

/-- Only SUBMIT has a payload. -/
theorem cmdPayload_of_not_operation {i : Instr} (hop : isOperation i = false) : cmdPayload i = [] := by
  cases i with
  | submit => cases hop
  | _ => rfl

/-- A word fails to decode only where it announces a payload that is not there. -/
theorem decodeWord_total {w : Word16} {rest : List Byte} (h : reservedWord w = true ∨ (cmdLen w).toNat ≤ rest.length) :
    ∃ i left, decodeWord w rest = .ok (i, left) := by
  obtain ⟨len, rfl⟩ | ⟨len, rfl⟩ | ⟨len, rfl⟩ | ⟨len, rfl⟩ | hop := word_cases w
  · exact ⟨_, _, decodeWord_op0 len rest⟩
  · have hlen : len.toNat ≤ rest.length := by simpa [reservedWord] using h
    exact ⟨_, _, (decodeWord_op1 len rest).trans (if_pos hlen)⟩
  · exact ⟨_, _, decodeWord_op2 len rest⟩
  · exact ⟨_, _, decodeWord_op3 len rest⟩
  · exact ⟨_, _, decodeWord_of_four_le hop rest⟩

/-- Settles O56: a word decodes to an instruction whose command word it is, so the word is reserved exactly where the
instruction is no operation. -/
theorem reservedWordsSpellNoOperation : Obligations.ReservedWordsSpellNoOperation := by
  intro w rest
  constructor
  · intro hres
    obtain ⟨i, left, h⟩ := decodeWord_total (rest := rest) (.inl hres)
    obtain ⟨hwf, hw, hrest⟩ := decodeWord_ok h
    have hop : isOperation i = false := by simpa [reservedWord_of_cmdWord hwf hw] using hres
    rw [cmdPayload_of_not_operation hop, List.nil_append] at hrest
    exact ⟨i, hrest ▸ h, exec_of_reserved hw hop⟩
  · intro hres hlen
    obtain ⟨i, left, h⟩ := decodeWord_total (.inr hlen)
    obtain ⟨hwf, hw, -⟩ := decodeWord_ok h
    exact ⟨i, left, h, by simpa [reservedWord_of_cmdWord hwf hw] using hres⟩

/-- Settles O57: the five are commands and no operations. -/
theorem reservedInstructionsAreRefused : Obligations.ReservedInstructionsAreRefused := by
  intro s a b c
  exact ⟨exec_of_reserved rfl rfl s, exec_of_reserved rfl rfl s, exec_of_reserved rfl rfl s,
    exec_of_reserved rfl rfl s, exec_of_reserved rfl rfl s⟩

/-- Settles O58, by running the decoders. -/
theorem writtenWordsDecode : Obligations.WrittenWordsDecode :=
  ⟨rfl, rfl, rfl, rfl, rfl, rfl⟩

/-! ## The decoder of rows, by scan state (R67, R127, R128) -/

/-- In AwaitingBody the number of bytes left decides. -/
theorem decodeScan_awaiting (left : List Byte) : decodeScan .awaitingBody left =
    some (if 17 ≤ left.length then .fsmBodyComplete else .fsmBodyIncomplete) :=
  (apply_ite some _ _ _).symm

/-- In its scan state a row that examines a byte is decoded from that byte, whatever is behind it. -/
theorem decodeScan_of_rowByte {i : Instr} {d : DecoderState} (hwf : WellFormed i = true) (hd : rowState i = some d)
    (hb : (rowByte i).isSome = true) (left : List Byte) : decodeScan d (encode i ++ left) = some i := by
  cases i with
  | fsmSyncInSeekFirst | fsmSyncInSeekSecond => cases hd; rfl
  | fsmOtherInSeekFirst b | fsmOtherInSeekSecond b => cases hd; exact if_neg (of_decide_eq_true hwf)
  | fsmBodyComplete | fsmBodyIncomplete => cases hb
  | submit | poll | lastFrame | reservedOp0 | reservedOp4to7 | reservedOp8toF | reservedPollLen
  | reservedLastFrameLen => cases hd

/-- Settles O54: the seek rows by their byte, the AwaitingBody rows by the bytes left. -/
theorem decodeOfEncodedRow : Obligations.DecodeOfEncodedRow := by
  intro i d left hwf hd
  refine ⟨fun hb => decodeScan_of_rowByte hwf hd hb left, ?_, ?_⟩
  · rintro rfl
    cases hd
    simp [decodeScan_awaiting]
  · rintro rfl
    cases hd
    simp [decodeScan_awaiting]

/-! ## Responses (R74, R240) -/

/-- The three fields of a response byte. -/
theorem respByte_fields (r : Response) : (respByte r).extractLsb' 0 2 = statusCode r.status ∧
    (respByte r).extractLsb' 2 1 = fvalid r ∧ (respByte r).extractLsb' 3 5 = 0#5 := by
  have fields : ∀ (v : BitVec 1) (c : BitVec 2), (0#5 ++ v ++ c).extractLsb' 0 2 = c ∧
      (0#5 ++ v ++ c).extractLsb' 2 1 = v ∧ (0#5 ++ v ++ c).extractLsb' 3 5 = 0#5 := by decide
  exact fields (fvalid r) (statusCode r.status)

/-- `FVALID` says whether a frame follows. -/
theorem fvalid_eq_one_iff (r : Response) : fvalid r = 1#1 ↔ r.frame.isSome = true := by
  unfold fvalid
  by_cases h : r.frame.isSome = true <;> simp [h]

theorem responseBytes_of_none {r : Response} (h : r.frame = none) : responseBytes r = [respByte r] := by
  simp [responseBytes, h]

theorem responseBytes_of_some {r : Response} {f : RawFrame} (h : r.frame = some f) :
    responseBytes r = respByte r :: encodeFrame f := by
  simp [responseBytes, h]

/-- A completed operation has a response; a SUBMIT's carries no frame (R240), a LAST_FRAME's is OK with LastFrame (R200). -/
theorem operation_response {i : Instr} {s t : State} (hop : isOperation i = true) (h : exec i s = .next t) :
    ∃ r, t.response = some r ∧ ((∃ b, i = .submit b) → r.frame = none) ∧
      (i = .lastFrame → r.status = .ok ∧ r.frame = s.lastFrame) := by
  obtain ⟨payload, rfl, hx⟩ | ⟨rfl, hx⟩ | ⟨rfl, hx⟩ | hrow := exec_next_cases h
  · obtain ⟨-, he⟩ | ⟨-, -, he⟩ | ⟨-, -, he⟩ := execSubmit_cases payload s
    all_goals
      rw [he] at hx
      cases hx
      exact ⟨_, rfl, fun _ => rfl, nofun⟩
  · obtain ⟨-, ⟨-, rfl⟩ | ⟨sc, -, hend⟩⟩ := execPoll_next hx
    · exact ⟨_, rfl, nofun, nofun⟩
    · obtain ⟨-, rfl⟩ := pollEnd_next hend
      exact ⟨_, rfl, nofun, nofun⟩
  · obtain ⟨-, rfl⟩ := execLastFrame_next hx
    exact ⟨_, rfl, nofun, fun _ => ⟨rfl, rfl⟩⟩
  · cases i with
    | submit | poll | lastFrame => cases hrow
    | _ => cases hop

/-- Settles O59: the byte's fields, the bytes behind it, and the response of each operation. -/
theorem responseEncoding : Obligations.ResponseEncoding := by
  refine ⟨fun r => ?_, fun i s t hop h => operation_response hop h⟩
  obtain ⟨hstatus, hvalid, hzero⟩ := respByte_fields r
  rw [hstatus, hvalid]
  refine ⟨congrArg statusCode, congrArg statusCode, congrArg statusCode, congrArg statusCode, fvalid_eq_one_iff r, hzero,
    fun h => ?_, fun f h => ?_⟩
  · rw [responseBytes_of_none h]; exact ⟨rfl, rfl⟩
  · rw [responseBytes_of_some h]; exact ⟨rfl, rfl⟩

end Sys2Proof.Machine

namespace Sys2Proof.Machine

/-! ## SUBMIT by the length of its payload (R101 to R106)

`execSubmit_of_le_free` is the third case, a payload within the free space. -/

/-- A payload longer than `QCAP` is refused for good (R101). -/
theorem execSubmit_of_qcap_lt {payload : List Byte} {s : State} (h : s.qcap < payload.length) :
    execSubmit payload s = .next (respond s .producer .capacityExceeded none) := by
  obtain ⟨-, hx⟩ | ⟨hle, -⟩ | ⟨hle, -⟩ := execSubmit_cases payload s
  · exact hx
  · omega
  · omega

/-- A payload within `QCAP` but beyond the free space is refused for now (R102). -/
theorem execSubmit_of_free_lt {payload : List Byte} {s : State} (hle : payload.length ≤ s.qcap)
    (hfull : s.qcap - s.q.length < payload.length) :
    execSubmit payload s = .next (respond s .producer .queueFull none) := by
  obtain ⟨hlt, -⟩ | ⟨-, -, hx⟩ | ⟨-, hfree, -⟩ := execSubmit_cases payload s
  · omega
  · exact hx
  · omega

/-- SUBMIT completes in every state, and the length of the payload decides its status; an OK has filled the buffer by that
length. -/
theorem exec_submit_status (payload : List Byte) (s : State) : ∃ t status, exec (.submit payload) s = .next t ∧
    t.response = some { agent := .producer, status := status, frame := none } ∧ t.qcap = s.qcap ∧
    (s.qcap < payload.length → status = .capacityExceeded) ∧
    (payload.length ≤ s.qcap → s.qcap - s.q.length < payload.length → status = .queueFull) ∧
    (payload.length ≤ s.qcap - s.q.length → status = .ok ∧ t.q.length = s.q.length + payload.length) := by
  obtain ⟨hlt, hx⟩ | ⟨hle, hfull, hx⟩ | ⟨hle, hfree, hx⟩ := execSubmit_cases payload s
  · exact ⟨_, _, hx, rfl, rfl, fun _ => rfl, by omega, by omega⟩
  · exact ⟨_, _, hx, rfl, rfl, by omega, fun _ _ => rfl, by omega⟩
  · exact ⟨_, _, hx, rfl, rfl, by omega, by omega, fun _ => ⟨rfl, List.length_append⟩⟩

/-- Settles O11: the first SUBMIT is beyond the free space, the second within it. -/
theorem submitBeyondFreeSpace : Obligations.SubmitBeyondFreeSpace :=
  fun _ _ hle hfull => ⟨execSubmit_of_free_lt hle hfull, fun _ _ hfree => execSubmit_of_le_free hfree⟩

/-- Settles O14: each boundary is a payload length that `exec_submit_status` decides. -/
theorem submitBoundaries : Obligations.SubmitBoundaries := by
  intro payload s hlen
  obtain ⟨t, status, hx, hr, hcap, hover, hfull, hok⟩ := exec_submit_status payload s
  refine ⟨t, status, hx, hr, fun hn hempty => ?_, fun hn hheld => ?_, fun hn => hover (by omega), fun hn => ?_,
    fun hn hle => hfull hle (by omega), fun hn => ⟨by omega, hover hn⟩⟩
  · rw [hempty, List.length_nil] at hok
    obtain ⟨hst, hfill⟩ := hok (by omega)
    exact ⟨hst, by omega⟩
  · exact hfull (by omega) (by omega)
  · obtain ⟨hst, hfill⟩ := hok (by omega)
    exact ⟨hst, by omega⟩

/-- Settles O16: a refused SUBMIT writes the response only, an accepted one appends as well. -/
theorem submitFrame : Obligations.SubmitFrame := by
  intro payload s t h
  have hx : execSubmit payload s = .next t := h
  obtain ⟨-, he⟩ | ⟨-, -, he⟩ | ⟨-, -, he⟩ := execSubmit_cases payload s
  all_goals cases hx.symm.trans he
  · exact ⟨rfl, rfl, rfl, rfl, rfl, .inl rfl, fun _ _ => rfl⟩
  · exact ⟨rfl, rfl, rfl, rfl, rfl, .inl rfl, fun _ _ => rfl⟩
  · exact ⟨rfl, rfl, rfl, rfl, rfl, .inr rfl, fun _ hk => List.getElem?_append_left hk⟩

/-- Settles O10: the bound on the payload is `QCAP` itself, whatever the buffer holds. -/
theorem submitOverCapacity : Obligations.SubmitOverCapacity :=
  fun _ _ h => execSubmit_of_qcap_lt h

/-- Settles O12: the next state is the accepted payload's, and the view of the POLL behind it is its buffer (R121). -/
theorem submitAppendsPayload : Obligations.SubmitAppendsPayload := by
  intro payload s hlen hfree
  refine ⟨_, execSubmit_of_le_free hfree, rfl, List.length_append, ?_, rfl, rfl, rfl⟩
  rw [respond_q, queueWrite_q, respond_qcap, queueWrite_qcap, List.length_append]
  omega

/-- Settles O13: no byte is within every free space, and appending none leaves the buffer as it is. -/
theorem submitOfNothing : Obligations.SubmitOfNothing := by
  intro s
  have hx : execSubmit [] s = .next (respond (queueWrite s []) .producer .ok none) :=
    execSubmit_of_le_free (Nat.zero_le _)
  rw [queueWrite, List.append_nil] at hx
  exact hx

/-! ## What a POLL reads (R107) -/

/-- A POLL of an empty buffer changes nothing but the response (R121). -/
theorem exec_poll_of_empty {s : State} (hidle : s.scan = none) (hq : s.q = []) :
    exec .poll s = .next (respond s .consumer .queueEmpty none) := by
  show execPoll s = _
  simp only [execPoll, hidle, if_pos hq]

/-- Taking a candidate leaves a scan that is read off the scan alone, and LastFrame as well where it was the same. -/
theorem takeCandidate_same_scan {w z : State} (sc : Scan) :
    (takeCandidate w sc).scan = (takeCandidate z sc).scan ∧
    (w.lastFrame = z.lastFrame → (takeCandidate w sc).lastFrame = (takeCandidate z sc).lastFrame) := by
  rw [takeCandidate_scan, takeCandidate_scan, takeCandidate_lastFrame, takeCandidate_lastFrame]
  exact ⟨rfl, fun h => by rw [h]⟩

/-- The loops of two POLLs with the same view end in the same scan, and in the same LastFrame where it was the same: each of
the loop's three ends reads the view only. -/
theorem pollLoop_same_buffer {s u : State} (hq : s.q = u.q) :
    (scanLoop (s.q.length + 1) (pollBegin s)).scan = (scanLoop (u.q.length + 1) (pollBegin u)).scan ∧
    (s.lastFrame = u.lastFrame → (scanLoop (s.q.length + 1) (pollBegin s)).lastFrame =
      (scanLoop (u.q.length + 1) (pollBegin u)).lastFrame) := by
  obtain ⟨hexh, hinc, hcomp⟩ := pollBegin_stops s
  obtain ⟨hexh', hinc', hcomp'⟩ := pollBegin_stops u
  rw [← hq] at hexh' hinc' hcomp' ⊢
  obtain hno | ⟨k, hk⟩ := noSync_or_firstSync s.q
  · rw [hexh hno, hexh' hno]; exact ⟨rfl, id⟩
  · by_cases hlen : s.q.length < k + 19
    · rw [hinc k hk hlen, hinc' k hk hlen]; exact ⟨rfl, id⟩
    · rw [hcomp k hk (Nat.le_of_not_lt hlen), hcomp' k hk (Nat.le_of_not_lt hlen)]
      exact takeCandidate_same_scan _

/-- Settles O26: on an empty buffer a POLL answers QUEUE_EMPTY; else its end is read off the scan of its loop, which is the same
for both. -/
theorem pollDependsOnBufferAlone : Obligations.PollDependsOnBufferAlone := by
  intro s u t v hq hs hu
  obtain ⟨hsidle, -⟩ := execPoll_next hs
  obtain ⟨huidle, -⟩ := execPoll_next hu
  by_cases hempty : s.q = []
  · rw [exec_poll_of_empty hsidle hempty] at hs
    rw [exec_poll_of_empty huidle (hq ▸ hempty)] at hu
    cases hs; cases hu
    exact ⟨hq, rfl, id⟩
  · obtain ⟨hscan, hlast⟩ := pollLoop_same_buffer hq
    obtain ⟨sc, hsc, -⟩ := pollLoop_stopped s
    rw [exec_poll_of_loop hsidle hempty hsc] at hs
    rw [exec_poll_of_loop huidle (hq ▸ hempty) (hscan ▸ hsc)] at hu
    obtain ⟨-, rfl⟩ := pollEnd_next hs
    obtain ⟨-, rfl⟩ := pollEnd_next hu
    obtain ⟨hsq, -⟩ := scanLoop_fields (s.q.length + 1) (pollBegin s)
    obtain ⟨huq, -⟩ := scanLoop_fields (u.q.length + 1) (pollBegin u)
    exact ⟨congrArg (List.drop sc.rel) (hsq.trans (hq.trans huq.symm)), rfl, hlast⟩

end Sys2Proof.Machine

namespace Sys2Proof.Machine

/-! ## The answer of a POLL by the first sync marker of its view (R131) -/

/-- What a POLL answers that releases `n` bytes and has the event `ev`: R131, R132 and R138, with LastFrame written where
there is an event (R129). -/
def pollAnswer (s : State) (n : Nat) (ev : Option RawFrame) : State :=
  { s with
    q := s.q.drop n
    lastFrame := ev.or s.lastFrame
    decoderState := DecoderState.seekFirstSync.bits
    response := some { agent := .consumer, status := .ok, frame := ev } }

/-- R131's table: how many bytes of `view` a POLL releases, and with which event. -/
inductive PollRelease (view : List Byte) : Nat → Option RawFrame → Prop where
  /-- No marker: the whole view is garbage. -/
  | garbage : NoSync view → view.getLast? ≠ some Config.syncByte → PollRelease view view.length none
  /-- No marker, but the last byte may begin one. -/
  | loneSync : NoSync view → view.getLast? = some Config.syncByte → PollRelease view (view.length - 1) none
  /-- An incomplete candidate stays from its marker on. -/
  | incomplete {k : Nat} : FirstSync view k → view.length < k + 19 → PollRelease view k none
  /-- A candidate that passes the checksum. -/
  | accepted {k : Nat} : FirstSync view k → k + 19 ≤ view.length → checksumOk (bodyAfter view k) = true →
      PollRelease view (k + 19) (some (unpack (bodyAfter view k)))
  /-- A candidate that fails it. -/
  | rejected {k : Nat} : FirstSync view k → k + 19 ≤ view.length → checksumOk (bodyAfter view k) = false →
      PollRelease view (k + 19) none

/-- R131's table has a row for every view. -/
theorem exists_pollRelease (view : List Byte) : ∃ n ev, PollRelease view n ev := by
  obtain hno | ⟨k, hk⟩ := noSync_or_firstSync view
  · by_cases hlast : view.getLast? = some Config.syncByte
    · exact ⟨_, _, .loneSync hno hlast⟩
    · exact ⟨_, _, .garbage hno hlast⟩
  · by_cases hlen : view.length < k + 19
    · exact ⟨_, _, .incomplete hk hlen⟩
    · cases hc : checksumOk (bodyAfter view k) with
      | true => exact ⟨_, _, .accepted hk (Nat.le_of_not_lt hlen) hc⟩
      | false => exact ⟨_, _, .rejected hk (Nat.le_of_not_lt hlen) hc⟩

/-- A release is within the view (R9, R134). -/
theorem PollRelease.le_length {view : List Byte} {n : Nat} {ev : Option RawFrame} (h : PollRelease view n ev) :
    n ≤ view.length := by
  cases h with
  | garbage => exact le_rfl
  | loneSync => exact Nat.sub_le _ _
  | incomplete hk => have := hk.1.length; omega
  | accepted _ hlen | rejected _ hlen => exact hlen

/-- A POLL whose loop has ended answers by the release count and the event of its scan. -/
theorem exec_poll_of_loop_scan {s w : State} {sc : Scan} {n : Nat} {ev : Option RawFrame} (hidle : s.scan = none)
    (hq : s.q ≠ []) (hw : scanLoop (s.q.length + 1) (pollBegin s) = w) (hs : w.scan = some sc) (hrel : sc.rel = n)
    (hev : sc.ev = ev) (hn : n ≤ sc.view.length) (hlast : w.lastFrame = ev.or s.lastFrame) :
    exec .poll s = .next (pollAnswer s n ev) := by
  subst hw hrel hev
  obtain ⟨hlq, hcap, -, hin⟩ := scanLoop_fields (s.q.length + 1) (pollBegin s)
  rw [exec_poll_of_loop hidle hq hs, pollEnd_of_le _ _ hn, hlq, hcap, hin, hlast, pollAnswer, hidle]
  rfl

/-- A POLL of a buffer that is not empty answers the row of R131's table that its view is in. -/
theorem exec_poll_of_release {s : State} {n : Nat} {ev : Option RawFrame} (hidle : s.scan = none) (hq : s.q ≠ [])
    (h : PollRelease s.q n ev) : exec .poll s = .next (pollAnswer s n ev) := by
  obtain ⟨hexh, hinc, hcomp⟩ := pollBegin_stops s
  simp only [Nat.zero_add] at hinc hcomp
  have hle := h.le_length
  cases h with
  | garbage hno hlast => exact exec_poll_of_loop_scan hidle hq (hexh hno) rfl (if_neg hlast) rfl hle rfl
  | loneSync hno hlast => exact exec_poll_of_loop_scan hidle hq (hexh hno) rfl (if_pos hlast) rfl hle rfl
  | incomplete hk hlen => exact exec_poll_of_loop_scan hidle hq (hinc _ hk hlen) rfl rfl rfl hle rfl
  | accepted hk hlen hc =>
    exact exec_poll_of_loop_scan hidle hq (hcomp _ hk hlen) (takeCandidate_scan _ _) rfl (if_pos hc) hle
      ((takeCandidate_lastFrame _ _).trans (if_pos hc))
  | rejected hk hlen hc =>
    have hc' := Bool.eq_false_iff.mp hc
    exact exec_poll_of_loop_scan hidle hq (hcomp _ hk hlen) (takeCandidate_scan _ _) rfl (if_neg hc') hle
      ((takeCandidate_lastFrame _ _).trans (if_neg hc'))

/-- Everything a POLL can do: it completes between operations only, on an empty buffer with QUEUE_EMPTY (R121), else with the row
of R131's table. -/
theorem exec_poll_next_cases {s t : State} (h : exec .poll s = .next t) :
    s.scan = none ∧ ((s.q = [] ∧ t = respond s .consumer .queueEmpty none) ∨
      ∃ n ev, s.q ≠ [] ∧ PollRelease s.q n ev ∧ t = pollAnswer s n ev) := by
  obtain ⟨hidle, -⟩ := execPoll_next h
  refine ⟨hidle, ?_⟩
  by_cases hq : s.q = []
  · rw [exec_poll_of_empty hidle hq] at h
    cases h
    exact .inl ⟨hq, rfl⟩
  · obtain ⟨n, ev, hrow⟩ := exists_pollRelease s.q
    rw [exec_poll_of_release hidle hq hrow] at h
    cases h
    exact .inr ⟨n, ev, hq, hrow, rfl⟩

/-- A marker's view is not empty. -/
theorem FirstSync.ne_nil {view : List Byte} {k : Nat} (h : FirstSync view k) : view ≠ [] := by
  rintro rfl
  have := h.1.length
  simp at this

/-- Settles O18. -/
theorem pollOfEmptyBuffer : Obligations.PollOfEmptyBuffer :=
  fun _ hidle hq => exec_poll_of_empty hidle hq

/-- What stays behind a release of all but the last byte. -/
theorem drop_length_sub_one_of_getLast? {view : List Byte} {b : Byte} (h : view.getLast? = some b) :
    view.drop (view.length - 1) = [b] := by
  obtain ⟨init, rfl⟩ := List.getLast?_eq_some_iff.mp h
  simp

/-- Settles O19: the first two rows of R131's table. -/
theorem pollWithoutSync : Obligations.PollWithoutSync := by
  intro s hidle hq hno
  by_cases hlast : s.q.getLast? = some Config.syncByte
  · rw [exec_poll_of_release hidle hq (.loneSync hno hlast), if_pos hlast, pollAnswer,
      drop_length_sub_one_of_getLast? hlast]
    rfl
  · rw [exec_poll_of_release hidle hq (.garbage hno hlast), if_neg hlast, pollAnswer, List.drop_length]
    rfl

/-- Settles O20: the third row. -/
theorem pollOfIncompleteCandidate : Obligations.PollOfIncompleteCandidate :=
  fun _ _ hidle hk hlen => exec_poll_of_release hidle hk.ne_nil (.incomplete hk hlen)

/-- Settles O21: the row of a finished candidate, with a matching checksum. -/
theorem pollAcceptsCandidate : Obligations.PollAcceptsCandidate :=
  fun _ _ hidle hk hlen hc => exec_poll_of_release hidle hk.ne_nil (.accepted hk hlen hc)

/-- Settles O22: the same row, with a failing one. -/
theorem pollRejectsCandidate : Obligations.PollRejectsCandidate :=
  fun _ _ hidle hk hlen hc => exec_poll_of_release hidle hk.ne_nil (.rejected hk hlen hc)

/-- Settles O24: an empty buffer answers QUEUE_EMPTY, every other one a row of R131's table, whose release is within the
view. -/
theorem pollAlwaysCompletes : Obligations.PollAlwaysCompletes := by
  intro s hidle hd
  by_cases hq : s.q = []
  · exact ⟨_, _, 0, exec_poll_of_empty hidle hq, Nat.zero_le _, rfl, hidle, hd, rfl, rfl, by simp [hq], by simp [hq]⟩
  · obtain ⟨n, ev, hrow⟩ := exists_pollRelease s.q
    exact ⟨_, _, n, exec_poll_of_release hidle hq hrow, hrow.le_length, rfl, hidle, rfl, rfl, rfl, by simp [hq],
      by simp [hq]⟩

/-- What R131's table keeps: an incomplete candidate from its marker on, a trailing lone 0xAA, and everything behind a finished
candidate (R134). -/
theorem PollRelease.loses_no_candidate {view : List Byte} {n : Nat} {ev : Option RawFrame} (h : PollRelease view n ev)
    (hne : view ≠ []) : (∀ k, FirstSync view k → view.length < k + 19 → n ≤ k) ∧
      (NoSync view → view.getLast? = some Config.syncByte → n < view.length) ∧
      ∀ k, FirstSync view k → k < n → k + 19 = n := by
  have hpos := List.length_pos_iff.mpr hne
  cases h with
  | garbage hno hlast =>
    exact ⟨fun k hk => absurd hk.1 (hno k), fun _ h => absurd h hlast, fun k hk => absurd hk.1 (hno k)⟩
  | loneSync hno hlast =>
    exact ⟨fun k hk => absurd hk.1 (hno k), fun _ _ => by omega, fun k hk => absurd hk.1 (hno k)⟩
  | incomplete hk hlen =>
    refine ⟨fun j hj _ => (hk.unique hj).le, fun hno => absurd hk.1 (hno _), fun j hj hlt => ?_⟩
    rw [hk.unique hj] at hlt
    omega
  | accepted hk hlen | rejected hk hlen =>
    refine ⟨fun j hj hlt => ?_, fun hno => absurd hk.1 (hno _), fun j hj _ => by rw [hk.unique hj]⟩
    rw [hk.unique hj] at hlen
    omega

/-- Settles O25: on an empty buffer nothing is released, and R131's table keeps what R134 asks for. -/
theorem pollLosesNoCandidate : Obligations.PollLosesNoCandidate := by
  intro s t h
  obtain ⟨-, ⟨hq, rfl⟩ | ⟨n, ev, hq, hrow, rfl⟩⟩ := exec_poll_next_cases h
  · exact ⟨0, Nat.zero_le _, rfl, fun _ _ _ => Nat.zero_le _, fun _ hlast => by simp [hq] at hlast, nofun⟩
  · exact ⟨n, hrow.le_length, rfl, hrow.loses_no_candidate hq⟩

/-- Settles O27: LastFrame is what it was, or the event. -/
theorem pollFrame : Obligations.PollFrame := by
  intro s t h
  obtain ⟨-, ⟨-, rfl⟩ | ⟨n, ev, -, -, rfl⟩⟩ := exec_poll_next_cases h
  · exact ⟨rfl, rfl, List.suffix_rfl, rfl, .inl rfl⟩
  · refine ⟨rfl, rfl, List.drop_suffix _ _, rfl, ?_⟩
    cases ev with
    | none => exact .inl rfl
    | some f => exact .inr ⟨f, rfl, rfl⟩

/-- A row of R131's table that releases nothing has no event: a finished candidate is always released. -/
theorem PollRelease.event_eq_none {view : List Byte} {ev : Option RawFrame} (h : PollRelease view 0 ev) : ev = none := by
  generalize hn : 0 = n at h
  cases h with
  | garbage | loneSync | incomplete | rejected => rfl
  | accepted => omega

/-- Settles O28: without a release there is no event, and so the answer of the POLL is its own answer. -/
theorem pollWithoutProgressRepeats : Obligations.PollWithoutProgressRepeats := by
  intro s t h hsame
  obtain ⟨hidle, ⟨hq, rfl⟩ | ⟨n, ev, hq, hrow, rfl⟩⟩ := exec_poll_next_cases h
  · exact ⟨rfl, rfl, exec_poll_of_empty (s := respond s .consumer .queueEmpty none) hidle hq⟩
  · have hn : n = 0 := by
      have hpos := List.length_pos_iff.mpr hq
      have hlen := congrArg List.length hsame
      rw [pollAnswer, List.length_drop] at hlen
      omega
    subst hn
    cases hrow.event_eq_none
    exact ⟨rfl, rfl, exec_poll_of_release (s := pollAnswer s 0 none) hidle hq hrow⟩

/-- Settles O31: the candidate behind the marker that the stray byte begins is the frame's second sync byte and all of its body
but `csum`. -/
theorem falseSyncLosesFrame : Obligations.FalseSyncLosesFrame := by
  intro s f rest hidle hq hc
  have hfirst : FirstSync s.q 0 := ⟨(syncAt_zero _).mpr ⟨_, hq⟩, nofun⟩
  have hlen : 0 + 19 ≤ s.q.length := by simp [hq, wireFrame, encodeFrame]
  have hbody : bodyAfter s.q 0 = Config.syncByte :: (encodeFrame f).take 16 := by rw [hq]; rfl
  have hrest : s.q.drop (0 + 19) = f.csum :: rest := by rw [hq]; rfl
  rw [exec_poll_of_release hidle hfirst.ne_nil (.rejected hfirst hlen (hbody ▸ hc)), pollAnswer, hrest]
  rfl

end Sys2Proof.Machine

namespace Sys2Proof.Machine

/-! ## The rows of the sync-search machine, one by one (R123 to R129) -/

/-- Settles O38: the scan invariant makes `rel` the scan index. -/
theorem firstSyncByteRow : Obligations.FirstSyncByteRow := by
  intro s sc hs hdone hd hat hb
  have hrel : sc.rel = sc.i := hat
  refine (execFsmSyncInSeekFirst_next s _).mpr ⟨sc, hs, hdone, hd, hb, ?_⟩
  rw [matchFirstSync_eq, hrel, consumeByte]

/-- Settles O39. -/
theorem garbageByteRow : Obligations.GarbageByteRow := by
  intro s sc b hs hdone hd hb hne
  refine (execFsmOtherInSeekFirst_next b s _).mpr ⟨sc, hs, hdone, hd, ⟨hb, hne⟩, ?_⟩
  rw [skipGarbage_eq, consumeByte, ← hd]

/-- Settles O40: the scan invariant has the first byte of the marker at `rel`, just before the scan index. -/
theorem secondSyncByteRow : Obligations.SecondSyncByteRow := by
  intro s sc hs hdone hd hat hb
  obtain ⟨hi, hfirst⟩ := hat
  exact ⟨(execFsmSyncInSeekSecond_next s _).mpr ⟨sc, hs, hdone, hd, hb, rfl⟩, ⟨hfirst, hi ▸ hb⟩, hi⟩

/-- Settles O41. -/
theorem failedSecondSyncRow : Obligations.FailedSecondSyncRow :=
  fun s sc b hs hdone hd hb hne =>
    (execFsmOtherInSeekSecond_next b s _).mpr ⟨sc, hs, hdone, hd, ⟨hb, hne⟩, rfl⟩

/-- Settles O42: the scan invariant has the marker in the two bytes before the scan index. -/
theorem incompleteBodyRow : Obligations.IncompleteBodyRow := by
  intro s sc hs hdone hd hat hlt
  obtain ⟨hi, -⟩ := hat
  have hleft : (scanLeft sc).length < Config.bodyLen := (scanLeft_length sc).trans_lt hlt
  exact ⟨(execFsmBodyIncomplete_next s _).mpr ⟨sc, hs, hdone, hd, hleft, rfl⟩, by omega⟩

/-- Settles O43: the body is the candidate, and `takeCandidate` decides by its checksum. -/
theorem completeBodyRow : Obligations.CompleteBodyRow := by
  intro s sc hs hdone hd hle
  have hleft : Config.bodyLen ≤ (scanLeft sc).length := hle.trans_eq (scanLeft_length sc).symm
  have hrow : exec .fsmBodyComplete s = .next (takeCandidate s sc) :=
    (execFsmBodyComplete_next s _).mpr ⟨sc, hs, hdone, hd, hleft, rfl⟩
  refine ⟨candidate sc, rfl, candidate_length hle, fun hc => ?_, fun hc => ?_⟩
  · rw [hrow, takeCandidate, if_pos hc]
    rfl
  · rw [hrow, takeCandidate, if_neg (Bool.eq_false_iff.mp hc)]
    rfl

/-- A row's meaning is a transition behind a check on the scan in progress: else the row is refused. -/
theorem row_next_or_refused (s : State) (d : DecoderState) (p : Scan → Prop) [DecidablePred p] (f : State → Scan → State) :
    let row : Host.Outcome State Fault Refusal :=
      match scanIn s d with
      | some sc => if p sc then .next (f s sc) else .refused .transitionNotEnabled
      | none => .refused .transitionNotEnabled
    (∃ t, row = .next t) ∨ row = .refused .transitionNotEnabled := by
  cases scanIn s d with
  | none => exact .inr rfl
  | some sc =>
    by_cases hp : p sc
    · exact .inl ⟨f s sc, if_pos hp⟩
    · exact .inr (if_neg hp)

/-- A row completes or is refused by name, and does nothing else (log entry 11). -/
theorem exec_row_next_or_refused {i : Instr} (hi : isRow i = true) (s : State) :
    (∃ t, exec i s = .next t) ∨ exec i s = .refused .transitionNotEnabled := by
  cases i with
  | fsmSyncInSeekFirst =>
    exact row_next_or_refused s .seekFirstSync (fun sc => scanByte sc = some Config.syncByte) matchFirstSync
  | fsmOtherInSeekFirst b =>
    exact row_next_or_refused s .seekFirstSync (fun sc => scanByte sc = some b ∧ b ≠ Config.syncByte) skipGarbage
  | fsmSyncInSeekSecond =>
    exact row_next_or_refused s .seekSecondSync (fun sc => scanByte sc = some Config.syncByte) matchSecondSync
  | fsmOtherInSeekSecond b =>
    exact row_next_or_refused s .seekSecondSync (fun sc => scanByte sc = some b ∧ b ≠ Config.syncByte) failSecondSync
  | fsmBodyComplete =>
    exact row_next_or_refused s .awaitingBody (fun sc => Config.bodyLen ≤ (scanLeft sc).length) takeCandidate
  | fsmBodyIncomplete =>
    exact row_next_or_refused s .awaitingBody (fun sc => (scanLeft sc).length < Config.bodyLen) leaveIncomplete
  | submit | poll | lastFrame | reservedOp0 | reservedOp4to7 | reservedOp8toF | reservedPollLen
  | reservedLastFrameLen => cases hi

/-- Settles O45: a row that completes was decoded, and a decoded row completes. -/
theorem rowRunsWhereDecoded : Obligations.RowRunsWhereDecoded := by
  refine fun i s hi => ⟨⟨fun ⟨t, h⟩ => ?_, fun ⟨sc, d, hs, hdone, hd, hdec⟩ => ?_⟩, exec_row_next_or_refused hi s⟩
  · obtain ⟨sc, d, hs, hdone, hd, hdec, -⟩ := exec_row_next hi h
    exact ⟨sc, d, hs, hdone, (ofBits_eq_some_iff _ _).mpr hd, hdec⟩
  · obtain ⟨t, h, -⟩ := exec_decoded_row hs hdone ((ofBits_eq_some_iff _ _).mp hd) hdec
    exact ⟨t, h⟩

/-! ## A POLL taken row by row -/

/-- A POLL in progress ends where its loop has been left, or its scan state and the bytes left decode to no row (R122). -/
theorem fetchRow_of_end {s : State} {sc : Scan} {d : DecoderState} (hd : DecoderState.ofBits s.decoderState = some d)
    (hend : sc.done = true ∨ decodeScan d (scanLeft sc) = none) : fetchRow s sc = .endPoll sc := by
  cases hdone : sc.done with
  | true => simp only [fetchRow, hdone, if_true]
  | false =>
    have hdec := hend.resolve_left (Bool.eq_false_iff.mp hdone)
    simp only [fetchRow, hdone, hd, hdec, Bool.false_eq_true, if_false]

/-- In a supported state a step whose POLL's loop has ended is the POLL's end. -/
theorem step_of_end {s : State} {sc : Scan} {d : DecoderState} (hsup : unsupported s = none) (hs : s.scan = some sc)
    (hd : DecoderState.ofBits s.decoderState = some d) (hend : sc.done = true ∨ decodeScan d (scanLeft sc) = none) :
    step s = pollEnd s sc := by
  simp only [step, hsup, fetch_of_scan hs, fetchRow_of_end hd hend]

/-- Settles O8: the step is the POLL's end, which releases within the view. -/
theorem stepEndsPoll : Obligations.StepEndsPoll :=
  fun _ _ _ hsup hs hrel hd hend => (step_of_end hsup hs hd hend).trans (pollEnd_of_le _ _ hrel)

/-- R122's loop keeps `ScanOk` and the view of a scan in progress (R133). -/
theorem scanLoop_scanOk (n : Nat) : ∀ {s : State} {sc : Scan}, s.scan = some sc → ScanOk s sc →
    ∃ sc', (scanLoop n s).scan = some sc' ∧ ScanOk (scanLoop n s) sc' ∧ sc'.view = sc.view := by
  induction n with
  | zero => exact fun hs ho => ⟨_, hs, ho, rfl⟩
  | succ n ih =>
    intro s sc hs ho
    cases hp : scanPass s sc with
    | none => rw [scanLoop_stop hs hp]; exact ⟨sc, hs, ho, rfl⟩
    | some t =>
      obtain ⟨sc', hs', ho', hview⟩ := scanPass_scanOk ho hp
      rw [scanLoop_pass hs hp, ← hview]
      exact ih hs' ho'

/-- Settles O46: `ScanOk` holds at a POLL's start and its loop keeps it, with the view. -/
theorem scanInvariantAtEveryPass : Obligations.ScanInvariantAtEveryPass := by
  intro s n sc hs hdone
  obtain ⟨sc', hs', ⟨-, hi, -, -, hrun, -⟩, hview⟩ := scanLoop_scanOk n (pollBegin_scan s) (pollBegin_scanOk s)
  cases hs.symm.trans hs'
  obtain ⟨-, d, hd, hat⟩ := hrun hdone
  exact ⟨d, hd, hat, hi, hview⟩

/-- With room for a frame and a scan that is in order, the block is within the spec (R250(b), (c)). -/
theorem unsupported_of_scanOk {s : State} {sc : Scan} (hcap : 19 ≤ s.qcap) (ho : ScanOk s sc) :
    unsupported s = none := by
  obtain ⟨-, -, -, -, hrun, hend⟩ := ho
  refine (unsupported_none_iff s).mpr ⟨hcap, ?_⟩
  cases hdone : sc.done with
  | false => obtain ⟨-, d, hd, -⟩ := hrun hdone; exact ⟨d, hd⟩
  | true => exact ⟨.awaitingBody, by rw [hend hdone, ofBits_bits]⟩

/-- In a supported state a step with a POLL in progress is one pass of its loop, or where the loop takes none, the POLL's
end. -/
theorem step_of_supported {s : State} {sc : Scan} (hsup : unsupported s = none) (hs : s.scan = some sc) :
    (∃ t, scanPass s sc = some t ∧ step s = .next t) ∨ (scanPass s sc = none ∧ step s = pollEnd s sc) := by
  obtain ⟨-, d, hd⟩ := (unsupported_none_iff s).mp hsup
  have hbits := (ofBits_eq_some_iff _ _).mp hd
  cases hdone : sc.done with
  | true => exact .inr ⟨scanPass_done s sc hdone, step_of_end hsup hs hd (.inl hdone)⟩
  | false =>
    cases hi : decodeScan d (scanLeft sc) with
    | some i =>
      obtain ⟨t, hx, hp⟩ := exec_decoded_row hs hdone hbits hi
      exact .inl ⟨t, hp, (stepRunsDecodedRow s sc d i hsup hs hdone hd hi).trans hx⟩
    | none => exact .inr ⟨scanPass_of_decodeScan_none hbits hi, step_of_end hsup hs hd (.inr hi)⟩

/-- A loop of `n` passes is a run of at most `n` steps, whatever the buffer and LastFrame hold besides. -/
theorem runSteps_of_scanOk (n : Nat) : ∀ {s : State} {sc : Scan}, 19 ≤ s.qcap → s.scan = some sc → ScanOk s sc →
    ∃ k, k ≤ n ∧ runSteps k s = .next (scanLoop n s) := by
  induction n with
  | zero => exact fun _ _ _ => ⟨0, le_rfl, rfl⟩
  | succ n ih =>
    intro s sc hcap hs ho
    obtain ⟨t, hp, hstep⟩ | ⟨hp, -⟩ := step_of_supported (unsupported_of_scanOk hcap ho) hs
    · obtain ⟨sc', hs', ho', -⟩ := scanPass_scanOk ho hp
      obtain ⟨-, htcap, -, -⟩ := scanPass_fields hp
      obtain ⟨k, hk, hrun⟩ := ih (htcap ▸ hcap) hs' ho'
      exact ⟨k + 1, Nat.succ_le_succ hk, by rw [runSteps_next hstep, hrun, scanLoop_pass hs hp]⟩
    · exact ⟨0, Nat.zero_le _, by rw [scanLoop_stop hs hp]; rfl⟩

/-- A scan that is in order releases within its view (R9). -/
theorem ScanOk.rel_le {s : State} {sc : Scan} (h : ScanOk s sc) : sc.rel ≤ sc.view.length := by
  obtain ⟨-, -, hrel, -⟩ := h
  exact hrel

/-- Settles O23: the passes of the POLL's loop are steps, and one step more is its end. -/
theorem rowByRowScanRefinesPoll : Obligations.RowByRowScanRefinesPoll := by
  intro s hcap hidle hq
  obtain ⟨k, hk, hrun⟩ := runSteps_of_scanOk (s.q.length + 1) (s := pollBegin s) hcap rfl (pollBegin_scanOk s)
  obtain ⟨sc, hs, hp⟩ := pollLoop_stopped s
  obtain ⟨sc', hs', ho, -⟩ := scanLoop_scanOk (s.q.length + 1) (pollBegin_scan s) (pollBegin_scanOk s)
  cases hs.symm.trans hs'
  obtain ⟨-, hlcap, -, -⟩ := scanLoop_fields (s.q.length + 1) (pollBegin s)
  have hsup := unsupported_of_scanOk (hcap.trans_eq hlcap.symm) ho
  have hend := pollEnd_of_le (scanLoop (s.q.length + 1) (pollBegin s)) sc ho.rel_le
  obtain ⟨t, hp', -⟩ | ⟨-, hstep⟩ := step_of_supported hsup hs
  · rw [hp] at hp'; cases hp'
  · refine ⟨k + 1, _, Nat.succ_le_succ hk, (exec_poll_of_loop hidle hq hs).trans hend, ?_⟩
    rw [runSteps_add 1 k _ hrun, runSteps_next (hstep.trans hend)]
    rfl

end Sys2Proof.Machine

namespace Sys2Proof.Machine

/-! ## The frames of a stream (R135)

`framesIn` decodes a stream that is there as a whole. A POLL delivers the first of the frames that are in the buffer and whatever
comes behind it, so the events of a run and the frames in the buffer after it are together the frames of what was submitted,
however it was cut into SUBMITs. -/

/-- The event of a candidate (R129). -/
def candidateEvent (body : List Byte) : Option RawFrame :=
  if checksumOk body then some (unpack body) else none

/-- The frames in a stream, by R123 to R129: a byte other than 0xAA is skipped, a byte 0xAA that no second one follows is skipped
with the byte behind it, and the 17 bytes behind a marker are a candidate, which the end of the stream may cut off. -/
def framesIn : List Byte → List RawFrame
  | [] => []
  | [_] => []
  | b :: c :: rest =>
    if b ≠ Config.syncByte then framesIn (c :: rest)
    else if c ≠ Config.syncByte then framesIn rest
    else if rest.length < 17 then []
    else (candidateEvent (rest.take 17)).toList ++ framesIn (rest.drop 17)
termination_by v => v.length
decreasing_by all_goals simp +arith

/-- A byte that is no sync byte begins no marker. -/
theorem framesIn_cons_of_ne {b : Byte} (hb : b ≠ Config.syncByte) (w : List Byte) : framesIn (b :: w) = framesIn w := by
  cases w with
  | nil => simp [framesIn]
  | cons c rest => rw [framesIn, if_pos hb]

/-- The byte behind a first sync byte ends the attempt where it is no sync byte; it is not tested again (R126). -/
theorem framesIn_sync_cons_of_ne {c : Byte} (hc : c ≠ Config.syncByte) (w : List Byte) :
    framesIn (Config.syncByte :: c :: w) = framesIn w := by
  rw [framesIn, if_neg (not_not.mpr rfl), if_pos hc]

/-- A marker without a whole body behind it begins no frame yet (R127). -/
theorem framesIn_incomplete {w : List Byte} (hw : w.length < 17) :
    framesIn (Config.syncByte :: Config.syncByte :: w) = [] := by
  simp only [framesIn, ne_eq, not_true_eq_false, if_false, if_pos hw]

/-- A marker with a body behind it is a candidate, and the stream goes on behind that (R128, R129). -/
theorem framesIn_candidate {body : List Byte} (hbody : body.length = 17) (w : List Byte) :
    framesIn (Config.syncByte :: Config.syncByte :: (body ++ w)) = (candidateEvent body).toList ++ framesIn w := by
  have hlen : ¬ (body ++ w).length < 17 := by rw [List.length_append]; omega
  simp only [framesIn, ne_eq, not_true_eq_false, if_false, if_neg hlen, List.take_left' hbody, List.drop_left' hbody]

/-- Bytes that hold no marker, and whose last one begins none, hold no frame: the frames are those behind them. -/
theorem framesIn_garbage_append (w : List Byte) : ∀ {g : List Byte}, NoSync g → g.getLast? ≠ some Config.syncByte →
    framesIn (g ++ w) = framesIn w
  | [], _, _ => rfl
  | [b], _, hlast => framesIn_cons_of_ne (fun hb => hlast (congrArg some hb)) w
  | b :: c :: rest, hno, hlast => by
    by_cases hb : b = Config.syncByte
    · subst hb
      have hc : c ≠ Config.syncByte := by
        rintro rfl
        exact hno 0 ((syncAt_zero _).mpr ⟨rest, rfl⟩)
      rw [List.getLast?_cons_cons, Ne, getLast?_cons_sync hc] at hlast
      rw [noSync_cons (not_syncAt_zero_of_snd hc _ _), noSync_cons (not_syncAt_zero_of_fst hc _)] at hno
      exact (framesIn_sync_cons_of_ne hc _).trans (framesIn_garbage_append w hno hlast)
    · rw [Ne, getLast?_cons_sync hb] at hlast
      rw [noSync_cons (not_syncAt_zero_of_fst hb _)] at hno
      exact (framesIn_cons_of_ne hb _).trans (framesIn_garbage_append w hno hlast)

/-! ## What a POLL takes from the stream -/

/-- The bytes before an index where a sync byte is, and before which no marker begins, hold no frame. -/
theorem framesIn_of_sync_at {v w : List Byte} {k : Nat} (hsync : v[k]? = some Config.syncByte)
    (hno : ∀ j, j < k → ¬ SyncAt v j) : framesIn (v ++ w) = framesIn (v.drop k ++ w) := by
  have hk : k < v.length := (List.getElem?_eq_some_iff.mp hsync).1
  have hgarbage : NoSync (v.take k) := by
    intro j hj
    have hlen := hj.length
    rw [List.length_take] at hlen
    obtain ⟨h0, h1⟩ := hj
    rw [List.getElem?_take_of_lt (by omega)] at h0 h1
    exact hno j (by omega) ⟨h0, h1⟩
  have hlast : (v.take k).getLast? ≠ some Config.syncByte := by
    intro h
    rw [List.getLast?_eq_getElem?, List.length_take_of_le hk.le] at h
    have hpos : k - 1 < k := (List.getElem?_eq_some_iff.mp h).1.trans_eq (List.length_take_of_le hk.le)
    rw [List.getElem?_take_of_lt hpos] at h
    exact hno (k - 1) hpos ⟨h, by rwa [Nat.sub_add_cancel (by omega)]⟩
  calc framesIn (v ++ w) = framesIn (v.take k ++ (v.drop k ++ w)) := by rw [← List.append_assoc, List.take_append_drop]
    _ = framesIn (v.drop k ++ w) := framesIn_garbage_append _ hgarbage hlast

/-- What is behind the bytes before a marker. -/
theorem SyncAt.drop_eq {v : List Byte} {k : Nat} (h : SyncAt v k) :
    v.drop k = Config.syncByte :: Config.syncByte :: v.drop (k + 2) := by
  obtain ⟨h0, h1⟩ := h
  obtain ⟨hk0, h0⟩ := List.getElem?_eq_some_iff.mp h0
  obtain ⟨hk1, h1⟩ := List.getElem?_eq_some_iff.mp h1
  rw [List.drop_eq_getElem_cons hk0, List.drop_eq_getElem_cons hk1, h0, h1]

/-- A finished candidate is what its marker begins, whatever comes behind. -/
theorem framesIn_of_firstSync {v : List Byte} {k : Nat} (hk : FirstSync v k) (hlen : k + 19 ≤ v.length) (w : List Byte) :
    framesIn (v ++ w) = (candidateEvent (bodyAfter v k)).toList ++ framesIn (v.drop (k + 19) ++ w) := by
  have hbody : (bodyAfter v k).length = 17 := by simp [bodyAfter, Config.bodyLen]; omega
  have hsplit : v.drop (k + 2) = bodyAfter v k ++ v.drop (k + 19) := by
    rw [← List.take_append_drop 17 (v.drop (k + 2)), List.drop_drop]; rfl
  rw [framesIn_of_sync_at hk.1.1 hk.2, hk.1.drop_eq, hsplit, List.cons_append, List.cons_append, List.append_assoc,
    framesIn_candidate hbody]

/-- A row of R131's table takes its event from the frames of the stream, whatever comes behind the view. -/
theorem PollRelease.framesIn_append {v : List Byte} {n : Nat} {ev : Option RawFrame} (h : PollRelease v n ev)
    (w : List Byte) : framesIn (v ++ w) = ev.toList ++ framesIn (v.drop n ++ w) := by
  cases h with
  | garbage hno hlast => rw [framesIn_garbage_append w hno hlast, List.drop_length]; rfl
  | loneSync hno hlast => exact framesIn_of_sync_at (List.getLast?_eq_getElem? ▸ hlast) fun j _ => hno j
  | incomplete hk => exact framesIn_of_sync_at hk.1.1 hk.2
  | accepted hk hlen hc => rw [framesIn_of_firstSync hk hlen, candidateEvent, if_pos hc]
  | rejected hk hlen hc => rw [framesIn_of_firstSync hk hlen, candidateEvent, if_neg (Bool.eq_false_iff.mp hc)]

/-- A row of R131's table makes progress or leaves no frame. -/
theorem PollRelease.progress_or_framesIn_nil {v : List Byte} {n : Nat} {ev : Option RawFrame} (h : PollRelease v n ev) :
    0 < n ∨ framesIn (v.drop n) = [] := by
  cases h with
  | garbage => exact .inr (by rw [List.drop_length, framesIn])
  | loneSync _ hlast => exact .inr (by rw [drop_length_sub_one_of_getLast? hlast, framesIn])
  | incomplete hk hlen => exact .inr (by rw [hk.1.drop_eq, framesIn_incomplete (by rw [List.length_drop]; omega)])
  | accepted | rejected => exact .inl (Nat.succ_pos _)

/-! ## What a schedule delivers -/

/-- What a run from `s` to `t` that submits `stream` and delivers `events` comes to: the frames of the stream, whatever comes
behind it, are the events and the frames that are left in the buffer; LastFrame is the latest event (R129). -/
structure Delivers (s : State) (stream : List Byte) (events : List RawFrame) (t : State) : Prop where
  idle : t.scan = none
  frames : ∀ w, framesIn (s.q ++ stream ++ w) = events ++ framesIn (t.q ++ w)
  lastFrame : t.lastFrame = events.getLast?.or s.lastFrame

/-- Two runs, one behind the other. -/
theorem Delivers.trans {s t u : State} {v w : List Byte} {es fs : List RawFrame} (h : Delivers s v es t)
    (h' : Delivers t w fs u) : Delivers s (v ++ w) (es ++ fs) u where
  idle := h'.idle
  frames x := by
    have hs := h.frames (w ++ x)
    have ht := h'.frames x
    simp only [List.append_assoc] at hs ht ⊢
    rw [hs, ht]
  lastFrame := by rw [h'.lastFrame, h.lastFrame, List.getLast?_append, Option.or_assoc]

/-- A SUBMIT that is not refused adds its payload to the stream. -/
theorem exec_submit_delivers {s t : State} {payload : List Byte} (hidle : s.scan = none)
    (h : exec (.submit payload) s = .next t) (hok : submitRefused t = false) : Delivers s payload [] t := by
  have hx : execSubmit payload s = .next t := h
  obtain ⟨-, he⟩ | ⟨-, -, he⟩ | ⟨-, -, he⟩ := execSubmit_cases payload s
  all_goals cases hx.symm.trans he
  · cases hok
  · cases hok
  · exact ⟨hidle, fun _ => rfl, rfl⟩

/-- A POLL delivers its event. -/
theorem exec_poll_delivers {s t : State} (h : exec .poll s = .next t) : Delivers s [] (eventsOf .poll t) t := by
  obtain ⟨hidle, ⟨-, rfl⟩ | ⟨n, ev, -, hrow, rfl⟩⟩ := exec_poll_next_cases h
  · exact ⟨hidle, fun w => by rw [List.append_nil]; rfl, rfl⟩
  · refine ⟨hidle, fun w => by rw [List.append_nil]; exact hrow.framesIn_append w, ?_⟩
    cases ev <;> rfl

/-- An accepted run begins with an operation that completes and is not refused, and goes on as an accepted run. -/
theorem runAccepted_cons {i : Instr} {ops : List Instr} {s t : State} {events : List RawFrame}
    (h : runAccepted (i :: ops) s = some (t, events)) : ∃ u rest, exec i s = .next u ∧ submitRefused u = false ∧
      runAccepted ops u = some (t, rest) ∧ events = eventsOf i u ++ rest := by
  unfold runAccepted at h
  split at h
  · split at h
    · cases h
    · split at h
      · cases h
        exact ⟨_, _, ‹_›, Bool.eq_false_iff.mpr ‹_›, ‹_›, rfl⟩
      · cases h
  · cases h

/-- A schedule of SUBMITs and POLLs delivers the frames of its stream, in order. -/
theorem runAccepted_delivers {ops : List Instr} : ∀ {s t : State} {events : List RawFrame}, s.scan = none →
    ops.all isFeedOp = true → runAccepted ops s = some (t, events) → Delivers s (streamOf ops) events t := by
  induction ops with
  | nil =>
    intro s t events hidle _ h
    cases h
    exact ⟨hidle, fun w => by simp [streamOf], rfl⟩
  | cons i ops ih =>
    intro s t events hidle hfeed h
    rw [List.all_cons, Bool.and_eq_true] at hfeed
    obtain ⟨hi, hops⟩ := hfeed
    obtain ⟨u, rest, hx, hok, hrun, rfl⟩ := runAccepted_cons h
    have hfirst : Delivers s (cmdPayload i) (eventsOf i u) u := by
      cases i with
      | submit payload => exact exec_submit_delivers hidle hx hok
      | poll => exact exec_poll_delivers hx
      | _ => cases hi
    exact hfirst.trans (ih hfirst.idle hops hrun)

/-- A POLL between operations completes, is no refusal, and makes progress or leaves no frame. -/
theorem exec_poll_drains {s : State} (hidle : s.scan = none) : ∃ t, exec .poll s = .next t ∧ submitRefused t = false ∧
    (t.q.length < s.q.length ∨ framesIn t.q = []) := by
  by_cases hq : s.q = []
  · exact ⟨_, exec_poll_of_empty hidle hq, rfl, .inr (by rw [respond_q, hq, framesIn])⟩
  · obtain ⟨n, ev, hrow⟩ := exists_pollRelease s.q
    refine ⟨_, exec_poll_of_release hidle hq hrow, rfl, hrow.progress_or_framesIn_nil.imp_left fun hn => ?_⟩
    have hpos := List.length_pos_iff.mpr hq
    rw [pollAnswer, List.length_drop]
    omega

/-- Enough POLLs, or any number where no frame is left, leave no frame in the buffer. -/
theorem runAccepted_drain (n : Nat) : ∀ {s : State}, s.scan = none → s.q.length ≤ n ∨ framesIn s.q = [] →
    ∃ t events, runAccepted (drain n) s = some (t, events) ∧ framesIn t.q = [] := by
  induction n with
  | zero =>
    intro s _ h
    refine ⟨s, [], rfl, h.elim (fun hlen => ?_) id⟩
    rw [List.eq_nil_of_length_eq_zero (Nat.le_zero.mp hlen), framesIn]
  | succ n ih =>
    intro s hidle h
    obtain ⟨t, hx, hok, hprogress⟩ := exec_poll_drains hidle
    have hdel := exec_poll_delivers hx
    have hleft : t.q.length ≤ n ∨ framesIn t.q = [] := by
      obtain hlen | hnil := h
      · exact hprogress.imp_left fun hlt => by omega
      · have hframes := hdel.frames []
        simp only [List.append_nil, hnil] at hframes
        exact .inr (List.append_eq_nil_iff.mp hframes.symm).2
    obtain ⟨u, events, hrun, hu⟩ := ih hdel.idle hleft
    refine ⟨u, eventsOf .poll t ++ events, ?_, hu⟩
    have hdrain : drain (n + 1) = .poll :: drain n := List.replicate_succ
    rw [hdrain, runAccepted, hx]
    simp only [hok, hrun, Bool.false_eq_true, if_false]

/-- A schedule and enough POLLs behind it deliver exactly the frames of the stream, and LastFrame is the latest of them. -/
theorem runAccepted_then_drain {ops : List Instr} {s t : State} {events : List RawFrame} {n : Nat} (hidle : s.scan = none)
    (hfeed : ops.all isFeedOp = true) (hrun : runAccepted ops s = some (t, events)) (hlen : t.q.length ≤ n) :
    ∃ u rest, runAccepted (drain n) t = some (u, rest) ∧ events ++ rest = framesIn (s.q ++ streamOf ops) ∧
      u.lastFrame = (framesIn (s.q ++ streamOf ops)).getLast?.or s.lastFrame := by
  have hops := runAccepted_delivers hidle hfeed hrun
  obtain ⟨u, rest, hdrain, hu⟩ := runAccepted_drain n hops.idle (.inl hlen)
  have hdrainFeed : (drain n).all isFeedOp = true := by simp [drain, isFeedOp]
  have hdrainStream : streamOf (drain n) = [] := by simp [streamOf, drain, cmdPayload]
  have hall := hops.trans (runAccepted_delivers hops.idle hdrainFeed hdrain)
  have hevents : events ++ rest = framesIn (s.q ++ streamOf ops) := by
    have hframes := hall.frames []
    simpa only [hdrainStream, List.append_nil, hu] using hframes.symm
  exact ⟨u, rest, hdrain, hevents, hevents ▸ hall.lastFrame⟩

/-- Settles O33: the events of either schedule with its drain are the frames of the one stream. -/
theorem fragmentationInvariance : Obligations.FragmentationInvariance := by
  intro s ops₁ ops₂ t₁ t₂ events₁ events₂ n hidle hfeed₁ hfeed₂ hstream hrun₁ hrun₂ hlen₁ hlen₂
  obtain ⟨u₁, rest₁, hdrain₁, hevents₁, hlast₁⟩ := runAccepted_then_drain hidle hfeed₁ hrun₁ hlen₁
  obtain ⟨u₂, rest₂, hdrain₂, hevents₂, hlast₂⟩ := runAccepted_then_drain hidle hfeed₂ hrun₂ hlen₂
  rw [← hstream] at hevents₂ hlast₂
  exact ⟨u₁, u₂, rest₁, rest₂, hdrain₁, hdrain₂, hevents₁.trans hevents₂.symm, hlast₁.trans hlast₂.symm⟩

end Sys2Proof.Machine

namespace Sys2Proof.Machine

/-! ## The checksum over unsigned sums (R160, R161) -/

/-- The bytes a checksum covers, summed as unsigned numbers and not reduced (R161). -/
def bodyTotal (body : List Byte) : Nat := ((body.take 16).map BitVec.toNat).sum

/-- 16 bytes sum to at most 16 * 255 (R161). -/
theorem bodyTotal_le (body : List Byte) : bodyTotal body ≤ 4080 := by
  have hsum := sum_toNat_le (body.take 16)
  have hlen := List.length_take_le 16 body
  rw [bodyTotal]
  omega

/-- The accumulator of R160 never overflows. -/
theorem bodySum_toNat (body : List Byte) : (bodySum body).toNat = bodyTotal body := by
  have hlen := List.length_take_le 16 body
  have hfits : (0#16).toNat + 255 * (body.take 16).length < 65536 := by
    rw [BitVec.toNat_zero]
    omega
  exact (foldl_add16_toNat _ _ hfits).trans (Nat.zero_add _)

/-- What is compared with `csum` is the unsigned sum mod 256. -/
theorem bodySum_setWidth_toNat (body : List Byte) : ((bodySum body).setWidth 8).toNat = bodyTotal body % 256 := by
  rw [BitVec.toNat_setWidth, bodySum_toNat]

/-- An 8-bit register that wraps on every addition ends with the accumulator's low byte (R161). -/
theorem foldl_add8_eq_bodySum_setWidth (body : List Byte) :
    (body.take 16).foldl (fun s b => s + b) 0#8 = (bodySum body).setWidth 8 := by
  apply BitVec.eq_of_toNat_eq
  rw [foldl_add8_toNat, bodySum_setWidth_toNat, BitVec.toNat_zero, Nat.zero_add, bodyTotal]

theorem checksumOk_iff (body : List Byte) :
    checksumOk body = true ↔ bodyTotal body % 256 = (bodyByte body 16).toNat := by
  rw [checksumOk, beq_iff_eq, ← BitVec.toNat_inj, bodySum_setWidth_toNat]

/-- The checksum sees of a body only its sum mod 256 and its last byte. -/
theorem checksumOk_congr {body body' : List Byte} (hsum : bodyTotal body % 256 = bodyTotal body' % 256)
    (hcsum : bodyByte body 16 = bodyByte body' 16) : checksumOk body = checksumOk body' := by
  rw [Bool.eq_iff_iff, checksumOk_iff, checksumOk_iff, hsum, hcsum]

/-- Settles O47: the 16-bit accumulator does not overflow, so both registers hold the unsigned sum mod 256. -/
theorem checksumIsSumMod256 : Obligations.ChecksumIsSumMod256 := fun body _ =>
  ⟨bodySum_toNat body, (bodySum_toNat body).trans_le (bodyTotal_le body), foldl_add8_eq_bodySum_setWidth body,
    checksumOk_iff body⟩

/-! ## Changed bytes (R163) -/

/-- A changed summed byte changes the sum by the difference. -/
theorem bodyTotal_set_summed {body : List Byte} {k : Nat} (hlen : k < body.length) (hk : k < 16) (b : Byte) :
    bodyTotal (body.set k b) + (bodyByte body k).toNat = bodyTotal body + b.toNat := by
  have hset := sum_toNat_set (body.take 16) k b (by rw [List.length_take]; omega)
  rwa [← List.take_set, getD_take_csumLen body hk] at hset

/-- `csum` is not summed (R161). -/
theorem bodyTotal_set_csum (body : List Byte) (b : Byte) : bodyTotal (body.set 16 b) = bodyTotal body := by
  rw [bodyTotal, List.take_set_of_le (Nat.le_refl 16), bodyTotal]

/-- A changed summed byte breaks the equality: the sum changes by less than 256, and `csum` stays. -/
theorem checksumOk_set_summed {body : List Byte} {k : Nat} {b : Byte} (hlen : k < body.length) (hk : k < 16)
    (hne : bodyByte body k ≠ b) (hok : checksumOk body = true) : checksumOk (body.set k b) = false := by
  have hsum := bodyTotal_set_summed hlen hk b
  have hold := (bodyByte body k).isLt
  have hnew := b.isLt
  rw [checksumOk_iff] at hok
  rw [ne_eq, ← BitVec.toNat_inj] at hne
  rw [Bool.eq_false_iff, ne_eq, checksumOk_iff, bodyByte_set hlen, if_neg (by omega)]
  omega

/-- A changed `csum` breaks the equality: the sum stays. -/
theorem checksumOk_set_csum {body : List Byte} {b : Byte} (hlen : 16 < body.length) (hne : bodyByte body 16 ≠ b)
    (hok : checksumOk body = true) : checksumOk (body.set 16 b) = false := by
  rw [checksumOk_iff] at hok
  rw [Bool.eq_false_iff, ne_eq, checksumOk_iff, bodyByte_set hlen, if_pos rfl, bodyTotal_set_csum, hok,
    BitVec.toNat_inj]
  exact hne

/-- Settles O48: the changed byte is a summed one, or it is `csum`. -/
theorem singleByteChangeIsCaught : Obligations.SingleByteChangeIsCaught := by
  intro body k b hlen hk hne hok
  obtain hk16 | rfl := Nat.lt_succ_iff_lt_or_eq.mp hk
  · exact checksumOk_set_summed (by omega) hk16 hne hok
  · exact checksumOk_set_csum (by omega) hne hok

/-- Two opposite changes of summed bytes leave the sum mod 256. -/
theorem bodyTotal_set_opposite {body : List Byte} {j k : Nat} (hlen : body.length = 17) (hj : j < 16) (hk : k < 16)
    (hne : j ≠ k) (d : Byte) :
    bodyTotal ((body.set j (bodyByte body j + d)).set k (bodyByte body k - d)) % 256 = bodyTotal body % 256 := by
  have hfirst := bodyTotal_set_summed (body := body) (by omega) hj (bodyByte body j + d)
  have hsecond := bodyTotal_set_summed (body := body.set j (bodyByte body j + d)) (by rw [List.length_set]; omega) hk
    (bodyByte body k - d)
  rw [bodyByte_set (by omega), if_neg hne.symm, BitVec.toNat_sub] at hsecond
  rw [BitVec.toNat_add] at hfirst
  have hd := d.isLt
  omega

/-- A changed summed byte is not `csum`. -/
theorem bodyByte_csum_set_summed {body : List Byte} {k : Nat} (hlen : k < body.length) (hk : k < 16) (b : Byte) :
    bodyByte (body.set k b) 16 = bodyByte body 16 := by
  rw [bodyByte_set hlen, if_neg (by omega)]

/-- 16 bytes with `csum` behind them sum to the sum of the 16. -/
theorem bodyTotal_append_csum {xs : List Byte} (hlen : xs.length = 16) (c : Byte) :
    bodyTotal (xs ++ [c]) = (xs.map BitVec.toNat).sum := by
  rw [bodyTotal, List.take_left' hlen]

theorem bodyByte_append_csum {xs : List Byte} (hlen : xs.length = 16) (c : Byte) : bodyByte (xs ++ [c]) 16 = c := by
  simp [bodyByte, ← hlen]

/-- Settles O49: a sum does not depend on the order of its terms, and `+d` and `-d` cancel mod 256. -/
theorem reorderingIsNotCaught : Obligations.ReorderingIsNotCaught := by
  refine ⟨fun xs ys c hlen hperm => ?_, fun body j k d hlen hj hk hne => ?_⟩
  · have hlen' : ys.length = 16 := hperm.length_eq.symm.trans hlen
    refine checksumOk_congr ?_ ?_
    · rw [bodyTotal_append_csum hlen, bodyTotal_append_csum hlen', (hperm.map _).sum_eq]
    · rw [bodyByte_append_csum hlen, bodyByte_append_csum hlen']
  · refine checksumOk_congr (bodyTotal_set_opposite hlen hj hk hne d) ?_
    rw [bodyByte_csum_set_summed (by rw [List.length_set]; omega) hk, bodyByte_csum_set_summed (by omega) hj]

end Sys2Proof.Machine

namespace Sys2Proof.Machine

/-! ## The unpacker (R180, R186) -/

@[simp] theorem encodeFrame_length (f : RawFrame) : (encodeFrame f).length = 17 := rfl

/-- Unpacking a frame's body gives back the frame: a byte field is the byte at its offset, an i16 field is joined from its high
and low byte (R180). -/
@[simp] theorem unpack_encodeFrame (f : RawFrame) : unpack (encodeFrame f) = f := by
  simp [unpack, encodeFrame, bodyByte, bodyWord, joinBytes_high_low]

/-- Settles O50: the unpacker reads each field where the encoder puts it, and a body is its 17 bytes. -/
theorem unpackEncodeRoundTrip : Obligations.UnpackEncodeRoundTrip :=
  ⟨fun f => ⟨encodeFrame_length f, unpack_encodeFrame f⟩, fun _ => encodeFrame_unpack⟩

/-! ## The reading of an i16 (R181, R182) -/

/-- A little-endian word as a number (R181). -/
theorem bodyWord_toNat (body : List Byte) (k : Nat) :
    (bodyWord body k).toNat = (bodyByte body k).toNat + 256 * (bodyByte body (k + 1)).toNat := joinBytes_toNat _ _

/-- A word whose sign bit is clear. -/
theorem int16_of_le {w : Word16} (h : w.toNat ≤ 0x7FFF) : int16 w = w.toNat := if_pos (Nat.lt_succ_of_le h)

/-- A word whose sign bit is set. -/
theorem int16_of_gt {w : Word16} (h : 0x7FFF < w.toNat) : int16 w = w.toNat - 0x10000 := if_neg (Nat.not_lt.mpr h)

/-- The two's-complement reading is the sign-extended word (R182). -/
theorem int16_eq_toInt (w : Word16) : int16 w = w.toInt := by
  rw [BitVec.toInt_eq_toNat_cond]
  obtain h | h := le_or_gt w.toNat 0x7FFF
  · rw [int16_of_le h, if_pos (by omega)]
  · rw [int16_of_gt h, if_neg (by omega)]
    rfl

/-- Settles O51: the offsets are R180's, and a word is read by its sign bit. -/
theorem fieldsAreLittleEndianTwosComplement : Obligations.FieldsAreLittleEndianTwosComplement := fun body =>
  ⟨⟨rfl, rfl, rfl, rfl, rfl, rfl, rfl, rfl, rfl, rfl, rfl⟩,
    fun k => ⟨bodyWord_toNat body k, int16_of_le, int16_of_gt, int16_eq_toInt _⟩⟩

/-! ## A frame in its wire form (R60, R66, R130) -/

@[simp] theorem wireFrame_length (f : RawFrame) : (wireFrame f).length = 19 := rfl

/-- A wire form begins with a sync marker. -/
theorem firstSync_wireFrame (f : RawFrame) (rest : List Byte) : FirstSync (wireFrame f ++ rest) 0 :=
  ⟨(syncAt_zero _).mpr ⟨_, rfl⟩, nofun⟩

/-- The candidate behind that marker is the frame's body. -/
theorem bodyAfter_wireFrame (f : RawFrame) (rest : List Byte) : bodyAfter (wireFrame f ++ rest) 0 = encodeFrame f := rfl

/-- R131's row for a wire form at the start of the view: exactly the wire form is released, and the event is the frame where its
`csum` is consistent (R129, R130). -/
theorem pollRelease_wireFrame (f : RawFrame) (rest : List Byte) :
    PollRelease (wireFrame f ++ rest) 19 (if frameOk f then some f else none) := by
  have hfirst := firstSync_wireFrame f rest
  have hbody := bodyAfter_wireFrame f rest
  have hlen : 0 + 19 ≤ (wireFrame f ++ rest).length := by simp
  cases hok : frameOk f with
  | true =>
    have haccept := PollRelease.accepted hfirst hlen (by rw [hbody]; exact hok)
    rwa [hbody, unpack_encodeFrame] at haccept
  | false => exact .rejected hfirst hlen (by rw [hbody]; exact hok)

/-- Settles O32: the POLL's event is the frame or none, as its `csum` is consistent or not. -/
theorem wireFrameRoundTrip : Obligations.WireFrameRoundTrip := by
  intro s f rest hidle hq
  have hrow : PollRelease s.q 19 (if frameOk f then some f else none) := hq ▸ pollRelease_wireFrame f rest
  have hrest : s.q.drop 19 = rest := by rw [hq, List.drop_left' (wireFrame_length f)]
  rw [exec_poll_of_release hidle (by simp [hq, wireFrame]) hrow, pollAnswer, hrest]
  refine ⟨fun hok => ?_, fun hok => ?_⟩
  · rw [if_pos hok]; rfl
  · rw [if_neg (Bool.eq_false_iff.mp hok)]; rfl

end Sys2Proof.Machine

namespace Sys2Proof.Machine

/-! ## LAST_FRAME (R200, R202) -/

/-- Between operations LAST_FRAME answers with LastFrame (R200). -/
theorem exec_lastFrame_of_idle {s : State} (hidle : s.scan = none) :
    exec .lastFrame s = .next (respond s .consumer .ok s.lastFrame) := by
  simp only [exec, execLastFrame, hidle]

/-- While a POLL is in progress, LAST_FRAME would overlap it (R250(d)). -/
theorem exec_lastFrame_of_scan {s : State} {sc : Scan} (hs : s.scan = some sc) :
    exec .lastFrame s = .refused .overlappingOperation := by
  simp only [exec, execLastFrame, hs]

/-- While a POLL is in progress, another POLL would overlap it (R250(d)). -/
theorem exec_poll_of_scan {s : State} {sc : Scan} (hs : s.scan = some sc) :
    exec .poll s = .refused .overlappingOperation := by
  simp only [exec, execPoll, hs]

/-- The answer of a POLL with an event is LAST_FRAME's own answer: the event is LastFrame by then (R129, R138). -/
theorem respond_lastFrame_pollAnswer (s : State) (n : Nat) (f : RawFrame) :
    respond (pollAnswer s n (some f)) .consumer .ok (some f) = pollAnswer s n (some f) := rfl

/-- Settles O36: a POLL with a frame in its response is a row of R131's table with that event, which answers OK and is
LastFrame by then. -/
theorem lastFrameReturnsEvent : Obligations.LastFrameReturnsEvent := by
  intro s t f h hframe
  obtain ⟨hidle, ⟨-, rfl⟩ | ⟨n, ev, -, -, rfl⟩⟩ := exec_poll_next_cases h
  · cases hframe
  · obtain rfl : ev = some f := Option.some.inj hframe
    have hlast : (pollAnswer s n (some f)).lastFrame = some f := rfl
    refine ⟨?_, hlast⟩
    rw [exec_lastFrame_of_idle (s := pollAnswer s n (some f)) hidle, hlast, respond_lastFrame_pollAnswer]

/-- Settles O35. -/
theorem lastFrameReadsLatest : Obligations.LastFrameReadsLatest := by
  refine fun s => ⟨exec_lastFrame_of_idle, fun hscan => ?_⟩
  obtain ⟨sc, hs⟩ := Option.ne_none_iff_exists'.mp hscan
  exact ⟨exec_lastFrame_of_scan hs, exec_poll_of_scan hs⟩

end Sys2Proof.Machine

namespace Sys2Proof.Machine

/-! ## TO_PRETTY (R221, R222, R223) -/

/-- An `int16` is at least -32768, the least 16-bit two's-complement value (R8). -/
theorem neg_32768_le_int16 (w : Word16) : -32768 ≤ int16 w := by
  rw [int16_eq_toInt]
  exact BitVec.le_toInt w

/-- An `int16` is at most 32767, the greatest 16-bit two's-complement value (R8). -/
theorem int16_le_32767 (w : Word16) : int16 w ≤ 32767 := by
  rw [int16_eq_toInt]
  exact Int.lt_add_one_iff.mp BitVec.toInt_lt

/-- Scaling by a factor that is not negative takes the ends of `int16`'s range to the ends of the scaled range. -/
theorem int16_mul_bounds (w : Word16) {c : Rat} (hc : 0 ≤ c) :
    -32768 * c ≤ int16 w * c ∧ int16 w * c ≤ 32767 * c :=
  ⟨mul_le_mul_of_nonneg_right (by exact_mod_cast neg_32768_le_int16 w) hc,
    mul_le_mul_of_nonneg_right (by exact_mod_cast int16_le_32767 w) hc⟩

/-- The range of an angle (R221). -/
theorem degrees_range (w : Word16) : -32768 / 100 ≤ degrees w ∧ degrees w ≤ 32767 / 100 := by
  have hscaled := int16_mul_bounds w (c := 100⁻¹) (by norm_num)
  simpa only [degrees, div_eq_mul_inv] using hscaled

/-- The range of an acceleration (R222). -/
theorem metresPerSecondSquared_range (w : Word16) :
    -3213443072 / 10000000 ≤ metresPerSecondSquared w ∧ metresPerSecondSquared w ≤ 32133450055 / 100000000 := by
  obtain ⟨hlo, hhi⟩ := int16_mul_bounds w (c := 980665 / 100000000) (by norm_num)
  rw [metresPerSecondSquared, mul_div_assoc]
  constructor
  · calc (-3213443072 / 10000000 : Rat) = -32768 * (980665 / 100000000) := by norm_num
      _ ≤ _ := hlo
  · calc _ ≤ (32767 : Rat) * (980665 / 100000000) := hhi
      _ = 32133450055 / 100000000 := by norm_num

/-- Settles O60: over the exact rationals each converted field is its conversion and each other field is the frame's
own, by definition; the ranges are those of `int16`, scaled. -/
theorem prettyValuesAndRanges : Obligations.PrettyValuesAndRanges := by
  intro f
  refine ⟨rfl, rfl, rfl, rfl, rfl, rfl, rfl, rfl, rfl, rfl, fun w => ?_⟩
  obtain ⟨hdegLo, hdegHi⟩ := degrees_range w
  exact ⟨hdegLo, hdegHi, metresPerSecondSquared_range w⟩

end Sys2Proof.Machine

namespace Sys2Proof.Machine

/-! ## What is refused to whom (R249, R250) -/

/-- A step in a state outside the spec is refused by the state's own name (R250(b), (c)). -/
theorem step_of_unsupported {s : State} {e : Refusal} (h : unsupported s = some e) : step s = .refused e := by
  simp only [step, h]

/-- The unused scan-state code is what is named wherever the capacity has room for a frame (R75, R250(b)). -/
theorem unsupported_of_unused_code {s : State} (hcap : 19 ≤ s.qcap) (hd : s.decoderState = 3#2) :
    unsupported s = some .decoderStateUnused := by
  have hroom : ¬ s.qcap < Config.minQcap := Nat.not_lt.mpr hcap
  rw [unsupported, if_neg hroom, if_pos ((ofBits_eq_none_iff _).mpr hd)]

/-- A second agent is refused before anything else about its request is looked at (R250(d)). -/
theorem refuseRequest_of_second_agent {r : Request} (hport : r.port ≠ 0) : refuseRequest r = some .secondAgent :=
  if_pos hport

/-- An overlapping operation of the attached agent is refused (R250(d)). -/
theorem refuseRequest_of_overlapping {r : Request} (hport : r.port = 0) (hctx : r.context = .overlapping) :
    refuseRequest r = some .overlappingOperation := by
  rw [refuseRequest, if_neg (not_not_intro hport), if_pos hctx]

/-- Any other request of the attached agent is looked into. -/
theorem refuseRequest_eq_none {r : Request} (hport : r.port = 0) (hctx : r.context ≠ .overlapping) :
    refuseRequest r = none := by
  rw [refuseRequest, if_neg (not_not_intro hport), if_neg hctx]

/-- An operation barred from the handling of a frame event is refused there, whoever issues it (R277, R250(e)). -/
theorem refuseOperation_of_reentrant {r : Request} {i : Instr} (hctx : r.context = .inFrameHandler)
    (hbar : barredInHandler i = true) : refuseOperation r i = some .reentrantOperation := if_pos ⟨hctx, hbar⟩

/-- Where re-entry is not what is wrong, an operation is refused to the agent it does not belong to (R249, R250(f)). -/
theorem refuseOperation_of_other_agent {r : Request} {i : Instr} {a : Agent}
    (hctx : ¬ (r.context = .inFrameHandler ∧ barredInHandler i = true)) (howner : agentOf i = some a)
    (hne : a ≠ r.agent) : refuseOperation r i = some .wrongAgent := by
  simp only [refuseOperation, if_neg hctx, howner, if_neg hne]

section
variable {s : State} {r : Request} {rest : List Input} {e : Refusal}

/-- A refused oldest request is a refused step. -/
theorem step_of_fetchRequest_refuse (hsup : unsupported s = none) (hidle : s.scan = none)
    (hin : s.inputs = .request r :: rest) (hf : fetchRequest s r rest = .refuse e) : step s = .refused e := by
  simp only [step, hsup, fetch_of_request hidle hin, hf]

/-- A request refused for its agent or its context is refused whatever its bytes are. -/
theorem fetchRequest_of_refuseRequest (h : refuseRequest r = some e) : fetchRequest s r rest = .refuse e := by
  simp only [fetchRequest, h]

/-- A request that is looked into is refused for the operation its bytes spell. -/
theorem fetchRequest_of_refuseOperation {i : Instr} {left : List Byte} (hreq : refuseRequest r = none)
    (hi : decodeCommand r.bytes = .ok (i, left)) (hop : refuseOperation r i = some e) :
    fetchRequest s r rest = .refuse e := by
  simp only [fetchRequest, hreq, hi, hop]

end

/-- Settles O9: the state is looked at first, then the request's agent and context, then the operation its bytes spell. -/
theorem forbiddenIssuesAreRefused : Obligations.ForbiddenIssuesAreRefused := by
  refine ⟨fun s hcap hd => step_of_unsupported (unsupported_of_unused_code hcap hd), fun s r rest hsup hidle hin => ?_⟩
  have refused {e : Refusal} : fetchRequest s r rest = .refuse e → step s = .refused e :=
    step_of_fetchRequest_refuse hsup hidle hin
  refine ⟨fun hport => refused (fetchRequest_of_refuseRequest (refuseRequest_of_second_agent hport)),
    fun hport hctx => refused (fetchRequest_of_refuseRequest (refuseRequest_of_overlapping hport hctx)),
    fun i left hport hctx hi => ?_⟩
  have refusedFor {e : Refusal} (hop : refuseOperation r i = some e) : step s = .refused e :=
    refused (fetchRequest_of_refuseOperation (refuseRequest_eq_none hport hctx) hi hop)
  refine ⟨fun hhandler hbarred => ?_, fun hnormal hagent hsubmit => ?_, fun hnormal hagent hpoll => ?_,
    fun hagent hlast => ?_⟩
  · refine refusedFor (refuseOperation_of_reentrant hhandler ?_)
    obtain rfl | ⟨b, rfl⟩ := hbarred
    · rfl
    · rfl
  · obtain ⟨b, rfl⟩ := hsubmit
    exact refusedFor (refuseOperation_of_other_agent (a := .producer) (by simp [hnormal]) rfl (by simp [hagent]))
  · subst hpoll
    exact refusedFor (refuseOperation_of_other_agent (a := .consumer) (by simp [hnormal]) rfl (by simp [hagent]))
  · subst hlast
    exact refusedFor (refuseOperation_of_other_agent (a := .consumer) (by simp [barredInHandler]) rfl (by simp [hagent]))

/-! ## What a status other than OK says (R240, R241, R246) -/

/-- A row of the sync-search machine is no operation of the block (R71, R122). -/
theorem isOperation_of_isRow {i : Instr} (h : isRow i = true) : isOperation i = false := by
  cases i with
  | submit | poll | lastFrame => cases h
  | _ => rfl

/-- An operation that completes has done nothing but return a status without a frame (R240), or has returned OK. -/
theorem operation_next_cases {i : Instr} {s t : State} (hop : isOperation i = true) (h : exec i s = .next t) :
    (∃ a status, t = respond s a status none) ∨ ∃ r, t.response = some r ∧ r.status = .ok := by
  obtain ⟨payload, rfl, hx⟩ | ⟨rfl, -⟩ | ⟨rfl, hx⟩ | hrow := exec_next_cases h
  · obtain ⟨-, he⟩ | ⟨-, -, he⟩ | ⟨-, -, he⟩ := execSubmit_cases payload s
    all_goals cases hx.symm.trans he
    · exact .inl ⟨_, _, rfl⟩
    · exact .inl ⟨_, _, rfl⟩
    · exact .inr ⟨_, rfl, rfl⟩
  · obtain ⟨-, ⟨-, rfl⟩ | ⟨n, ev, -, -, rfl⟩⟩ := exec_poll_next_cases h
    · exact .inl ⟨_, _, rfl⟩
    · exact .inr ⟨_, rfl, rfl⟩
  · obtain ⟨-, rfl⟩ := execLastFrame_next hx
    exact .inr ⟨_, rfl, rfl⟩
  · exact absurd hop (Bool.eq_false_iff.mp (isOperation_of_isRow hrow))

/-- Settles O17: an operation whose status is not OK has written its response only, with no frame in it. -/
theorem failedOperationChangesNothing : Obligations.FailedOperationChangesNothing := by
  intro i s t r hop h hr hne
  obtain ⟨a, status, rfl⟩ | ⟨r', hr', hok⟩ := operation_next_cases hop h
  · cases hr
    exact ⟨rfl, rfl⟩
  · cases hr.symm.trans hr'
    exact absurd hok hne

/-- No instruction that completes changes `QCAP` (R4, R26). -/
theorem exec_qcap {i : Instr} {s t : State} (h : exec i s = .next t) : t.qcap = s.qcap := by
  obtain ⟨payload, rfl, -⟩ | ⟨rfl, -⟩ | ⟨-, hx⟩ | hrow := exec_next_cases h
  · obtain ⟨-, -, -, hcap, -⟩ := submitFrame payload s t h
    exact hcap
  · obtain ⟨hcap, -⟩ := pollFrame s t h
    exact hcap
  · obtain ⟨-, rfl⟩ := execLastFrame_next hx
    rfl
  · obtain ⟨sc, d, -, -, -, -, hp⟩ := exec_row_next hrow h
    obtain ⟨-, hcap, -, -⟩ := scanPass_fields hp
    exact hcap

/-- SUBMIT returns CAPACITY_EXCEEDED exactly where the payload is longer than `QCAP` (R101, R241). -/
theorem submit_capacityExceeded_iff {payload : List Byte} {s t : State} (h : exec (.submit payload) s = .next t) :
    t.response.map Response.status = some .capacityExceeded ↔ s.qcap < payload.length := by
  have hx : execSubmit payload s = .next t := h
  obtain ⟨hlt, he⟩ | ⟨hle, -, he⟩ | ⟨hle, -, he⟩ := execSubmit_cases payload s
  all_goals cases hx.symm.trans he
  · exact iff_of_true rfl hlt
  · exact iff_of_false nofun (Nat.not_lt.mpr hle)
  · exact iff_of_false nofun (Nat.not_lt.mpr hle)

/-- Settles O15: the status compares the payload with `QCAP` only, and a payload longer than that is refused in every state. -/
theorem capacityExceededIsPermanent : Obligations.CapacityExceededIsPermanent := by
  refine ⟨fun _ _ _ h => exec_qcap h, fun payload s t h => ⟨submit_capacityExceeded_iff h, fun hstatus u hcap => ?_⟩⟩
  have hlt : s.qcap < payload.length := (submit_capacityExceeded_iff h).mp hstatus
  exact submitOverCapacity payload u (hcap ▸ hlt)

end Sys2Proof.Machine

namespace Sys2Proof.Machine

/-! ## The capacity of one frame, at construction and at a step (R250, R275) -/

/-- A capacity below one frame is what is named, whatever else holds (R250(c)). -/
theorem unsupported_of_qcap_lt {s : State} (hcap : s.qcap < 19) : unsupported s = some .capacityBelowFrame :=
  if_pos hcap

/-- Settles O2: construction compares its argument with one frame, and a step looks at the capacity first. -/
theorem capacityBelowFrameIsRefused : Obligations.CapacityBelowFrameIsRefused := by
  refine ⟨fun qcap => ?_, fun s hcap => step_of_unsupported (unsupported_of_qcap_lt hcap)⟩
  obtain ⟨hle, hc⟩ | ⟨hlt, hc⟩ := construct_cases qcap
  · rw [hc]
    exact iff_of_false nofun (Nat.not_lt.mpr hle)
  · exact iff_of_true hc hlt

/-! ## A reset between operations (R272) -/

/-- A reset with an admitted capacity is that construction, the inputs behind it kept. -/
theorem resetBlock_of_le {qcap : Nat} {rest : List Input} (hcap : 19 ≤ qcap) :
    resetBlock qcap rest = .next { State.constructed qcap with inputs := rest } := by
  obtain ⟨-, hc⟩ | ⟨hlt, -⟩ := construct_cases qcap
  · rw [resetBlock, hc]
  · omega

/-- With no POLL in progress a step looks at the oldest input, here a reset. -/
theorem fetch_of_reset {s : State} {qcap : Nat} {rest : List Input} (hidle : s.scan = none)
    (hin : s.inputs = .reset qcap :: rest) : fetch s = .reset qcap rest := by
  simp only [fetch, fetchInput, hidle, hin]

/-- In a supported state a step that finds a reset is that reset. -/
theorem step_of_fetch_reset {s : State} {qcap : Nat} {rest : List Input} (hsup : unsupported s = none)
    (hf : fetch s = .reset qcap rest) : step s = resetBlock qcap rest := by
  simp only [step, hsup, hf]

/-- Settles O3. -/
theorem resetDiscardsBufferAndLastFrame : Obligations.ResetDiscardsBufferAndLastFrame :=
  fun _ _ _ hsup hidle hin hcap =>
    (step_of_fetch_reset hsup (fetch_of_reset hidle hin)).trans (resetBlock_of_le hcap)

/-! ## POLLs without progress (R275, R276) -/

/-- The view a POLL may leave in place is empty, a lone 0xAA, or an incomplete candidate, all shorter than a frame. -/
theorem PollRelease.length_le_of_zero {view : List Byte} {ev : Option RawFrame} (h : PollRelease view 0 ev) :
    view.length ≤ 18 := by
  generalize hn : 0 = n at h
  cases h with
  | garbage | loneSync | incomplete | accepted | rejected => omega

/-- Where a POLL completes and leaves the buffer as it was, less than a frame is held. -/
theorem length_le_of_exec_poll_same_buffer {s t : State} (h : exec .poll s = .next t) (hsame : t.q = s.q) :
    s.q.length ≤ 18 := by
  obtain ⟨-, ⟨hq, -⟩ | ⟨n, ev, hq, hrow, rfl⟩⟩ := exec_poll_next_cases h
  · simp [hq]
  · have hpos := List.length_pos_iff.mpr hq
    have hlen : s.q.length - n = s.q.length := List.length_drop.symm.trans (congrArg List.length hsame)
    obtain rfl : n = 0 := by omega
    exact hrow.length_le_of_zero

/-- Settles O29: at most 18 bytes are held behind the POLL as before it, so `QCAP - 18` bytes are within the free space. -/
theorem retainedBytesLeaveRoom : Obligations.RetainedBytesLeaveRoom := by
  intro s t h hsame
  have hheld : s.q.length ≤ 18 := length_le_of_exec_poll_same_buffer h hsame
  have hcap : t.qcap = s.qcap := exec_qcap h
  refine ⟨hheld, fun payload hlen => execSubmit_of_le_free ?_⟩
  rw [hsame, hcap]
  omega

/-- SUBMIT of one or more bytes to a full buffer only answers: QUEUE_FULL, or CAPACITY_EXCEEDED for a payload longer than
`QCAP` (R101, R102, R245). -/
theorem exec_submit_of_full {s : State} {payload : List Byte} (hfull : s.q.length = s.qcap) (hne : payload ≠ []) :
    ∃ t, exec (.submit payload) s = .next t ∧ t.q = s.q ∧
      (payload.length ≤ s.qcap → t.response.map Response.status = some .queueFull) ∧
      (s.qcap < payload.length → t.response.map Response.status = some .capacityExceeded) := by
  have hpos := List.length_pos_iff.mpr hne
  obtain hlt | hle := Nat.lt_or_ge s.qcap payload.length
  · exact ⟨_, execSubmit_of_qcap_lt hlt, rfl, by omega, fun _ => rfl⟩
  · exact ⟨_, execSubmit_of_free_lt hle (by omega), rfl, fun _ => rfl, by omega⟩

/-- Settles O30: the buffer has no room for a frame, so the candidate behind the marker is incomplete and POLL releases
nothing (R127). -/
theorem smallBufferLivelocks : Obligations.SmallBufferLivelocks := by
  intro s hcap hidle hd hheld hsync
  have hfirst : FirstSync s.q 0 := ⟨hsync, nofun⟩
  have hpoll := pollOfIncompleteCandidate s 0 hidle hfirst (by omega)
  rw [List.drop_zero, ← hd] at hpoll
  exact ⟨hpoll, fun hfull _ hne => exec_submit_of_full hfull hne⟩

end Sys2Proof.Machine
